-- ==== Sys2Proof/Word.lean ====
section
/-! DEFINITION. The byte, the one width of the machine (00_scope.md R4, 20_memory.md R26). -/

namespace Sys2Proof

/-- Every memory cell, register, opcode, operand and ALU result is one byte, 0..255 (R4). -/
abbrev Byte := BitVec 8

end Sys2Proof
end

