-- ==== Sys2Proof/Syntax.lean ====
section
/-! DEFINITION. The instruction set: one constructor per row of spec/opcode_table.json. -/

namespace Sys2Proof

/-- An instruction with its operand bytes as they stand in memory. A register index is a whole byte,
0..255; only 0..7 name a register (30_encoding.md R37, R39). -/
inductive Instr where
  /-- HLT (R60). -/
  | hlt
  /-- LDI: `a` is a register index, `b` an 8-bit literal (R61). -/
  | ldi (a b : Byte)
  /-- PRN: `a` is a register index (R62). -/
  | prn (a : Byte)
  /-- ADD: `a` and `b` are register indices (R69). -/
  | add (a b : Byte)
  /-- MUL: `a` and `b` are register indices (R70). -/
  | mul (a b : Byte)
  /-- The table's default row: an opcode byte outside the five (R44, R55). -/
  | unrecognized (op : Byte)
deriving DecidableEq, Repr

/-- The decoder's tagged variant: which handler an opcode byte names (00_scope.md R7, 40_cycle.md R51). -/
inductive Kind where
  | hlt
  | ldi
  | prn
  | add
  | mul
  | unknown
deriving DecidableEq, Repr

end Sys2Proof
end

