-- ==== Sys2Proof/WellFormed.lean ====
section
/-! DEFINITION. Which instructions the encoding can write. -/

namespace Sys2Proof

/-- The five recognized opcode bytes, in the table's order: HLT, LDI, PRN, ADD, MUL (30_encoding.md R40). -/
def recognizedOpcodes : List Byte := [0x01#8, 0x82#8, 0x47#8, 0xA0#8, 0xA2#8]

/-- An instruction is well formed when the decoder can produce it. Every operand byte is encodable, an
index above 7 included (R37). The one condition is on the default row: its byte is none of the five
(R44). -/
def Instr.wf : Instr → Bool
  | .hlt => true
  | .ldi _ _ => true
  | .prn _ => true
  | .add _ _ => true
  | .mul _ _ => true
  | .unrecognized op => !recognizedOpcodes.contains op

end Sys2Proof
end

