-- ==== Sys2Proof/Decode.lean ====
section
/-! DEFINITION. The decoder (40_cycle.md R51, 30_encoding.md R35 to R46), total on every byte string,
and the encoder written from the same encoding table. -/

namespace Sys2Proof

/-- `Decode(opcode) -> (kind, width)`: one exact match per whole byte, no bit-field (R43, R51). -/
def decodeOpcode (op : Byte) : Kind × Nat :=
  if op = 0x01#8 then (.hlt, 1)
  else if op = 0x82#8 then (.ldi, 3)
  else if op = 0x47#8 then (.prn, 2)
  else if op = 0xA0#8 then (.add, 3)
  else if op = 0xA2#8 then (.mul, 3)
  else (.unknown, 1)

/-- The instruction that an opcode byte and its two candidate operand bytes are; a byte the instruction
does not use is discarded (R36, R59). Total: no encoding is illegal (R45). -/
def instrOf (op a b : Byte) : Instr :=
  match (decodeOpcode op).1 with
  | .hlt => .hlt
  | .ldi => .ldi a b
  | .prn => .prn a
  | .add => .add a b
  | .mul => .mul a b
  | .unknown => .unrecognized op

/-- Why a byte string holds no whole instruction. It concerns a string cut short only: the fetch window
always holds three bytes. -/
inductive DecodeError where
  /-- There is no opcode byte. -/
  | noOpcode
  /-- The string ends before the operands of opcode `op`, whose width is `width`. -/
  | truncated (op : Byte) (width : Nat)
deriving DecidableEq, Repr

/-- Decodes the instruction at the head of a byte string and answers the bytes after it. The opcode byte
alone decides the length (R46). -/
def decode (bytes : List Byte) : Except DecodeError (Instr × List Byte) :=
  match bytes with
  | [] => .error .noOpcode
  | op :: rest =>
    let width := (decodeOpcode op).2
    if rest.length + 1 < width then .error (.truncated op width)
    else .ok (instrOf op (rest.getD 0 0#8) (rest.getD 1 0#8), rest.drop (width - 1))

/-- The bytes of an instruction at rising addresses (R35, R36, R48). -/
def encode : Instr → List Byte
  | .hlt => [0x01#8]
  | .ldi a b => [0x82#8, a, b]
  | .prn a => [0x47#8, a]
  | .add a b => [0xA0#8, a, b]
  | .mul a b => [0xA2#8, a, b]
  | .unrecognized op => [op]

/-- Byte `k` (offset from the opcode) of an instruction whose `nbits` bits are `w`, numbered as
spec/opcode_table.json numbers them: byte +0 is bits 7..0, byte +1 bits 15..8, byte +2 bits 23..16, and
every bit from `nbits` on is 0. -/
def tableByte (nbits w k : Nat) : Byte :=
  BitVec.ofNat 8 ((w % 2 ^ nbits) / 2 ^ (8 * k))

/-- The instruction the decoder reads from a word of the opcode table, in the three-byte window that a
fetch reads (R50). -/
def decodeTableWord (nbits w : Nat) : Option Instr :=
  match decode [tableByte nbits w 0, tableByte nbits w 1, tableByte nbits w 2] with
  | .ok (i, _) => some i
  | .error _ => none

end Sys2Proof
end

