-- ==== Sys2Proof/Config.lean ====
section
/-! DEFINITION. The parameters of 00_scope.md R4 and R5. The source fixes the sizes of R4. The
parameters of R5 are OPEN: each is an opaque constant without a body, so no proof can see its value. -/

namespace Sys2Proof

/-- `TRACE_HEX_CASE` is lower or upper (R5). -/
inductive HexCase where
  | lower
  | upper
deriving DecidableEq, Repr, Inhabited

namespace Config

/-- `MEM_SIZE`: memory cells, addresses 0..255 (R4). -/
def memSize : Nat := 256

/-- `NREGS`: general registers, indices 0..7 (R4). -/
def nRegs : Nat := 8

/-- `REG_INIT`: register contents at reset, OPEN (R5, R13, D4). DESIGN CHOICE, log 1. -/
opaque regInit : Fin 8 → Byte

/-- One less than `FLAGS_SIZE`, so that the size is any natural number ≥ 1 (R5, D5). -/
opaque flagsSizePred : Nat

/-- `FLAGS_SIZE`: number of bytes in the Flags array, OPEN but at least 1 (R5, R17). -/
def flagsSize : Nat := flagsSizePred + 1

/-- `FLAGS_INIT`: Flags contents at reset, OPEN (R5, R17, D5). DESIGN CHOICE, log 2. -/
opaque flagsInit : Fin flagsSize → Byte

/-- Whether `EXIT_FAULT_STATUS` is negative; OPEN (R5, D11). -/
opaque exitFaultNegative : Bool

/-- One less than the magnitude of `EXIT_FAULT_STATUS`; OPEN (R5, D11). -/
opaque exitFaultMagnitudePred : Nat

/-- `EXIT_FAULT_STATUS`: any nonzero integer (R5, R82, D11). DESIGN CHOICE, log 7: its sign and
magnitude are open, and neither choice makes it 0. -/
def exitFaultStatus : Int :=
  if exitFaultNegative then Int.negSucc exitFaultMagnitudePred
  else Int.ofNat (exitFaultMagnitudePred + 1)

/-- `TRACE_ENABLED`: whether the optional trace is produced; OPEN (R5, R84, D12). -/
opaque traceEnabled : Bool

/-- `TRACE_HEX_CASE`: letter case of the trace's hex digits; OPEN (R5, R84, D12). -/
opaque traceHexCase : HexCase

end Config

end Sys2Proof
end

