-- ==== Sys2Proof/Machine/ResetValues.lean ====
section
/-! DEFINITION. The contents that construction gives the registers and the Flags array, which the source
leaves open (10_state.md R13, R17). -/

namespace Sys2Proof.Machine

/-- `x[i] = REG_INIT(i)` for i in 0..7 (R13). DESIGN CHOICE, log 1: the spec's open parameter, whose value
no proof can see. -/
def resetRegs : Vector Byte 8 :=
  #v[Config.regInit 0, Config.regInit 1, Config.regInit 2, Config.regInit 3,
     Config.regInit 4, Config.regInit 5, Config.regInit 6, Config.regInit 7]

/-- `FLAGS_INIT`, `FLAGS_SIZE` bytes of it (R17). DESIGN CHOICE, log 2. -/
def resetFlags : List Byte := List.ofFn Config.flagsInit

end Sys2Proof.Machine
end

