-- ==== Sys2Proof/Machine/State.lean ====
section
/-! DEFINITION. The machine's state (10_state.md), its fatal errors (60_exceptions.md R71) and the state
after reset (70_reset_and_hazards.md R87). -/

namespace Sys2Proof.Machine

/-- What an OutOfRange access was aimed at (R71). -/
inductive Target where
  | memory
  | register
deriving DecidableEq, Repr

/-- Whether an OutOfRange access was a read or a write (R71). -/
inductive Access where
  | read
  | write
deriving DecidableEq, Repr

/-- The alu's operation input. It is wider than the two supported values (44_alu.md R66). DESIGN CHOICE,
log 9: `sub` is the source's own example, and `other` stands for every further identifier. -/
inductive AluOp where
  | add
  | mul
  | sub
  | other (id : Nat)
deriving DecidableEq, Repr

/-- The two fatal errors of the core (R71). The machine TAKES them: the next state has `run = faulted e`
(R76), and no step of this model ends in `Outcome.fault`. -/
inductive Fault where
  /-- Code 1. Raised by a memory access above 255 or a register access above 7, with the offending index,
  the access and the pc of the step (R10, R12, R22, R23). Safe: the spec defines it. -/
  | outOfRange (target : Target) (index : Nat) (access : Access) (pc : Nat)
  /-- Code 2. Raised by the alu for an operation other than ADD or MUL (R67). Safe: no step reaches it. -/
  | unsupportedOperation (op : AluOp) (pc : Nat)
deriving DecidableEq, Repr

/-- Why an instruction has no meaning. No arm of this model answers it. -/
inductive Refusal where
  /-- Raised by an arm of `exec` whose instruction has no meaning yet; none is left. Safe: it stops. -/
  | notModelled (mnemonic : String)
deriving DecidableEq, Repr

/-- The run state (10_state.md R16). -/
inductive RunState where
  /-- The loop fetches the next instruction. -/
  | running
  /-- HLT was executed: the clean end. -/
  | halted
  /-- A fatal error was raised. -/
  | faulted (e : Fault)
deriving DecidableEq, Repr

/-- The whole machine state, one record (10_state.md). -/
structure State where
  /-- 256 byte cells (R8), as the canonical list of the cells that are not 0 (log 12). -/
  mem : List Host.Cell
  /-- The eight general registers (R9, R11). -/
  x : Vector Byte 8
  /-- The address of the next instruction to fetch, a natural number that never wraps (R14). -/
  pc : Nat
  /-- The run state (R16). -/
  run : RunState
  /-- The Flags array, inert storage (R17). -/
  flags : List Byte
  /-- The bytes PRN has emitted, oldest first (R18). -/
  out : List Byte
deriving DecidableEq, Repr

/-- Phase 1 of a run, the construction of the engine, for every content of the registers and of the Flags
(R87). A claim about a program quantifies over both (R13, D4). -/
def State.construct (regInit : Vector Byte 8) (flagsInit : List Byte) : State where
  mem := []
  x := regInit
  pc := 0
  run := .running
  flags := flagsInit
  out := []

/-- The machine right after reset (R87), with nothing loaded. -/
def State.reset : State := State.construct resetRegs resetFlags

end Sys2Proof.Machine
end

