-- ==== Sys2Proof/Machine/Flags.lean ====
section
/-! DEFINITION. The flag computations, of which there are none: the Flags array is inert storage that no
instruction reads or writes (10_state.md R17). -/

namespace Sys2Proof.Machine

/-- The Flags after an ALU operation `op` on operands `u` and `v`: unchanged, since no carry, overflow, zero
or sign flag is written (R17, R68). -/
def flagsAfterAlu (_op : AluOp) (_u _v : Byte) (flags : List Byte) : List Byte := flags

end Sys2Proof.Machine
end

