-- ==== Sys2Proof/Machine/Operands.lean ====
section
/-! DEFINITION. The two operand forms: a register index and an 8-bit literal (30_encoding.md R37 to R39).
There are no memory operands and no addressing modes. -/

namespace Sys2Proof.Machine

/-- A register-index operand as the register file takes it: the whole byte, never reduced modulo 8 (R10,
R37). -/
def regIndex (operand : Byte) : Nat := operand.toNat

/-- A literal operand: the byte as it stands, neither extended nor scaled (R38). -/
def literal (operand : Byte) : Byte := operand

end Sys2Proof.Machine
end

