-- ==== Sys2Proof/Machine/Ops.lean ====
section
/-! DEFINITION. The operations every meaning is written over: memory, the register file, the output stream,
the PC advance, and taking a fatal error. -/

namespace Sys2Proof.Machine

/-- What a cell that the list does not name reads as: memory is zero-initialized (R8, R34). -/
def Memory.unlisted : Byte := 0#8

/-- The byte the list gives address `a`. -/
def Memory.peek : List Host.Cell → Nat → Byte
  | [], _ => Memory.unlisted
  | (k, v) :: rest, a => if k = a then v else Memory.peek rest a

/-- The list with address `a` holding `v`, kept in canonical form. -/
def Memory.poke : List Host.Cell → Nat → Byte → List Host.Cell
  | [], a, v => if v = Memory.unlisted then [] else [(a, v)]
  | (k, u) :: rest, a, v =>
    if a < k then
      if v = Memory.unlisted then (k, u) :: rest else (a, v) :: (k, u) :: rest
    else if a = k then
      if v = Memory.unlisted then rest else (a, v) :: rest
    else (k, u) :: Memory.poke rest a v

/-- The canonical form: addresses strictly rising and inside the 256 cells, and no cell equal to what an
unlisted address reads as. Equal memories are then equal lists (log 12). -/
abbrev Memory.wf (m : List Host.Cell) : Prop :=
  m.Pairwise (fun c d => c.1 < d.1) ∧ ∀ c ∈ m, c.1 < Config.memSize ∧ c.2 ≠ Memory.unlisted

/-- `MemRead(addr, 1)` (20_memory.md R22). -/
def memRead (addr : Nat) (s : State) : Except Fault Byte :=
  if addr < Config.memSize then .ok (Memory.peek s.mem addr)
  else .error (.outOfRange .memory addr .read s.pc)

/-- `MemWrite(addr, 1, v)` (20_memory.md R23). Only the loader calls it. -/
def memWrite (addr : Nat) (v : Byte) (s : State) : Except Fault State :=
  if addr < Config.memSize then .ok { s with mem := Memory.poke s.mem addr v }
  else .error (.outOfRange .memory addr .write s.pc)

/-- `x[i]` (10_state.md R10): an index above 7 faults; it is never reduced modulo 8. -/
def readReg (i : Nat) (s : State) : Except Fault Byte :=
  if h : i < Config.nRegs then .ok (s.x[i]'h) else .error (.outOfRange .register i .read s.pc)

/-- `x[i] <- v` (10_state.md R12): an index above 7 faults and no register changes. -/
def writeReg (i : Nat) (v : Byte) (s : State) : Except Fault State :=
  if h : i < Config.nRegs then .ok { s with x := s.x.set i v h }
  else .error (.outOfRange .register i .write s.pc)

/-- `Emit(v)`: appends a byte to the output stream (00_scope.md section 6, 10_state.md R18). -/
def emit (v : Byte) (s : State) : State := { s with out := s.out ++ [v] }

/-- `pc <- pc + width`, exact and never wrapping (40_cycle.md R54, 20_memory.md R30). -/
def advance (width : Nat) (s : State) : State := { s with pc := s.pc + width }

/-- TAKING A FATAL ERROR (60_exceptions.md R76): the next state is the state of before the step with
`run = FAULTED(e)`. No vector, no saved register, no mode change (R75), and no return from it: FAULTED is
final (R78). -/
def raise (e : Fault) (s : State) : Host.Outcome State Fault Refusal :=
  .next { s with run := .faulted e }

/-- The end of a step that began in `s`: what the instruction computed, or, where it raised, the fault taken
from `s` itself, so that a step is all or nothing (40_cycle.md R56). -/
def conclude (s : State) : Except Fault State → Host.Outcome State Fault Refusal
  | .ok t => .next t
  | .error e => raise e s

/-- A machine that is HALTED or FAULTED stays unchanged for good (40_cycle.md R53). DESIGN CHOICE, log 4: the
spec defines no step there, and the model's step answers the same state. -/
def stayFinal (s : State) : Host.Outcome State Fault Refusal := .next s

end Sys2Proof.Machine
end

