-- ==== Sys2Proof/Machine/Alu.lean ====
section
/-! DEFINITION. The alu block and the two instructions that use it, ADD and MUL (44_alu.md). -/

namespace Sys2Proof.Machine

/-- `AluResult(ADD, u, v)`: the exact sum of the unsigned bytes, modulo 256 (R68). -/
def aluAdd (u v : Byte) : Byte := BitVec.ofNat 8 (u.toNat + v.toNat)

/-- `AluResult(MUL, u, v)`: the exact product of the unsigned bytes, modulo 256 (R68). -/
def aluMul (u v : Byte) : Byte := BitVec.ofNat 8 (u.toNat * v.toNat)

/-- The operation an identifier names; the ALU supports ADD and MUL only (R66). -/
def aluFunction : AluOp → Option (Byte → Byte → Byte)
  | .add => some aluAdd
  | .mul => some aluMul
  | .sub => none
  | .other _ => none

/-- `ALU(op, a, b)` (R65). The operation is checked first, then `x[a]` is read, then `x[b]`, then `x[a]` is
written (D8). The PC does not move. -/
def alu (op : AluOp) (a b : Byte) (s : State) : Except Fault State :=
  match aluFunction op with
  | none => .error (.unsupportedOperation op s.pc)
  | some f =>
    match readReg (regIndex a) s with
    | .error e => .error e
    | .ok u =>
      match readReg (regIndex b) s with
      | .error e => .error e
      | .ok v => writeReg (regIndex a) (f u v) { s with flags := flagsAfterAlu op u v s.flags }

/-- ADD (R69). -/
def execAdd (a b : Byte) (s : State) : Host.Outcome State Fault Refusal :=
  conclude s ((alu .add a b s).map (advance 3))

/-- MUL (R70). -/
def execMul (a b : Byte) (s : State) : Host.Outcome State Fault Refusal :=
  conclude s ((alu .mul a b s).map (advance 3))

end Sys2Proof.Machine
end

