-- ==== Sys2Proof/Machine/Control.lean ====
section
/-! DEFINITION. HLT (41_hlt.md) and the unrecognized opcodes (40_cycle.md R55). -/

namespace Sys2Proof.Machine

/-- HLT (R60): the run state becomes HALTED and the PC stays at the HLT byte. -/
def execHlt (s : State) : Host.Outcome State Fault Refusal := .next { s with run := .halted }

/-- An unrecognized opcode (R55): the PC advances by 1 and nothing else happens. -/
def execUnrecognized (_op : Byte) (s : State) : Host.Outcome State Fault Refusal := .next (advance 1 s)

end Sys2Proof.Machine
end

