-- ==== Sys2Proof/Machine/Load.lean ====
section
/-! DEFINITION. LDI, load immediate into register (42_ldi.md). -/

namespace Sys2Proof.Machine

/-- LDI (R61): `x[a] <- b`, then the PC advances by 3. -/
def execLdi (a b : Byte) (s : State) : Host.Outcome State Fault Refusal :=
  conclude s ((writeReg (regIndex a) (literal b) s).map (advance 3))

end Sys2Proof.Machine
end

