-- ==== Sys2Proof/Machine/Print.lean ====
section
/-! DEFINITION. PRN, print register (43_prn.md). -/

namespace Sys2Proof.Machine

/-- PRN (R62): reads `x[a]`, emits it, and the PC advances by 2. -/
def execPrn (a : Byte) (s : State) : Host.Outcome State Fault Refusal :=
  conclude s ((readReg (regIndex a) s).map fun v => advance 2 (emit v s))

end Sys2Proof.Machine
end

