-- ==== Sys2Proof/Machine/Dispatch.lean ====
section
/-! DEFINITION. The control unit's dispatch: one handler per instruction (40_cycle.md R52). -/

namespace Sys2Proof.Machine

/-- The handler of an instruction, its PC advance included (R52). It does not look at the run state: `step`
does (log 14). -/
def exec (i : Instr) (s : State) : Host.Outcome State Fault Refusal :=
  match i with
  | .hlt => Sys2Proof.Machine.execHlt s
  | .ldi a b => Sys2Proof.Machine.execLdi a b s
  | .prn a => Sys2Proof.Machine.execPrn a s
  | .add a b => Sys2Proof.Machine.execAdd a b s
  | .mul a b => Sys2Proof.Machine.execMul a b s
  | .unrecognized op => Sys2Proof.Machine.execUnrecognized op s

end Sys2Proof.Machine
end

