-- ==== Sys2Proof/Machine/Fetch.lean ====
section
/-! DEFINITION. The fetch_unit (40_cycle.md R50). -/

namespace Sys2Proof.Machine

/-- The three bytes the fetch_unit latches. They live inside one step and are no field of State (10_state.md
R19). -/
structure FetchLatch where
  opcode : Byte
  operandA : Byte
  operandB : Byte
deriving DecidableEq, Repr

/-- `Fetch(pc, mem)`: three one-byte reads at rising addresses, for every opcode and before decode. The
first address above 255 is the one reported (R50, D13). -/
def fetch (s : State) : Except Fault FetchLatch :=
  match memRead s.pc s with
  | .error e => .error e
  | .ok opcode =>
    match memRead (s.pc + 1) s with
    | .error e => .error e
    | .ok operandA =>
      match memRead (s.pc + 2) s with
      | .error e => .error e
      | .ok operandB => .ok ⟨opcode, operandA, operandB⟩

end Sys2Proof.Machine
end

