-- ==== Sys2Proof/Machine/Loader.lean ====
section
/-! DEFINITION. The loader's contract with the core (70_reset_and_hazards.md R87 to R89) and the start of a
run. The loader's text handling is out of scope (00_scope.md R3). -/

namespace Sys2Proof.Machine

/-- `MemWrite(i, 1, program[i])` for the bytes of an image, the first of them at address `base`. -/
def loadFrom (base : Nat) (image : List Byte) (s : State) : Except Fault State :=
  match image with
  | [] => .ok s
  | v :: rest =>
    match memWrite base v s with
    | .error e => .error e
    | .ok t => loadFrom (base + 1) rest t

/-- Phase 2 of a run: the loader writes every byte of the image, from address 0 (R88). The write of byte 256
raises (R89). -/
def load (image : List Byte) (s : State) : Except Fault State := loadFrom 0 image s

/-- What the first two phases of a run end in (R87). -/
inductive Boot where
  /-- The control unit begins stepping from this state (R90). -/
  | started (s : State)
  /-- A loader write was out of range: execution never begins (R89). -/
  | loadFailed (e : Fault)
  /-- The image's text was malformed: execution never begins (60_exceptions.md R85). -/
  | malformedImage
deriving DecidableEq, Repr

/-- The first two phases: a constructed engine, and what the loader made of its text, `none` being a
malformed image (R85, R87). -/
def boot (image : Option (List Byte)) (s : State) : Boot :=
  match image with
  | none => .malformedImage
  | some bytes =>
    match load bytes s with
    | .ok t => .started t
    | .error e => .loadFailed e

end Sys2Proof.Machine
end

