-- ==== Sys2Proof/Machine/HostView.lean ====
section
/-! DEFINITION. What the host sees of a run: the rendered output (43_prn.md R63), the exit status and the
report (60_exceptions.md R82, R83) and the optional trace line (R84). Nothing here changes a state. -/

namespace Sys2Proof.Machine

/-- The ASCII digit of a number below 10. -/
def decimalDigit (n : Nat) : Char := Char.ofNat (48 + n)

/-- The decimal numeral of a byte: 1 to 3 digits, no leading zero (R63). -/
def decimalNumeral (v : Byte) : List Char :=
  let n := v.toNat
  if n < 10 then [decimalDigit n]
  else if n < 100 then [decimalDigit (n / 10), decimalDigit (n % 10)]
  else [decimalDigit (n / 100), decimalDigit (n / 10 % 10), decimalDigit (n % 10)]

/-- One line a byte: its numeral, then LF (R63, D10). -/
def renderByte (v : Byte) : List Char := decimalNumeral v ++ ['\n']

/-- The output stream as text, in order (R63). -/
def renderOutput (out : List Byte) : List Char := out.flatMap renderByte

/-- The number that labels a fatal error in the model's fault type (R71, D7). -/
def Fault.code : Fault → Nat
  | .outOfRange _ _ _ _ => 1
  | .unsupportedOperation _ _ => 2

/-- The process exit status of a run state; a running machine has none yet (R82). -/
def exitStatus : RunState → Option Int
  | .running => none
  | .halted => some 0
  | .faulted _ => some Config.exitFaultStatus

/-- The exit status of a run that did not begin, or that stands at its start (R82, R85, R89). DESIGN CHOICE, log
7: an error before the start exits with the same nonzero status as FAULTED. -/
def Boot.exitStatus : Boot → Option Int
  | .started s => Machine.exitStatus s.run
  | .loadFailed _ => some Config.exitFaultStatus
  | .malformedImage => some Config.exitFaultStatus

/-- The info the host reports at the end of a run; the message's wording is open (R83). -/
def report : RunState → Option Fault
  | .running => none
  | .halted => none
  | .faulted e => some e

/-- A hex digit in the letter case asked for. -/
def hexDigit (c : HexCase) (n : Nat) : Char :=
  if n < 10 then Char.ofNat (48 + n)
  else
    match c with
    | .lower => Char.ofNat (87 + n)
    | .upper => Char.ofNat (55 + n)

/-- A number below 256 as two hex digits. -/
def hexTwo (c : HexCase) (n : Nat) : List Char := [hexDigit c (n / 16 % 16), hexDigit c (n % 16)]

/-- The trace line of a fetched step, without its line end (R84): `TRACE: pc | opcode a b | x0 ... x7`. -/
def traceText (c : HexCase) (pc : Nat) (l : FetchLatch) (x : Vector Byte 8) : List Char :=
  ['T', 'R', 'A', 'C', 'E', ':', ' '] ++ hexTwo c pc ++ [' ', '|', ' ']
    ++ hexTwo c l.opcode.toNat ++ [' '] ++ hexTwo c l.operandA.toNat ++ [' '] ++ hexTwo c l.operandB.toNat
    ++ [' ', '|', ' ']
    ++ List.intercalate [' '] (x.toList.map fun v => hexTwo c v.toNat)

/-- The line that the step from `s` produces: none when the trace is off, when no step is defined, or when
Fetch faults; otherwise the line shows the registers as they are before the step (R84, D12). -/
def traceLine (enabled : Bool) (c : HexCase) (s : State) : Option (List Char) :=
  if enabled then
    match s.run with
    | .running =>
      match fetch s with
      | .ok l => some (traceText c s.pc l s.x)
      | .error _ => none
    | .halted => none
    | .faulted _ => none
  else none

/-- The machine's own trace, under the open parameters (R5). -/
def stepTrace (s : State) : Option (List Char) := traceLine Config.traceEnabled Config.traceHexCase s

end Sys2Proof.Machine
end

