-- ==== Sys2Proof/Machine/Place.lean ====
section
/-! DEFINITION. Placing one instruction word where the next step fetches. -/

namespace Sys2Proof.Machine

/-- The pc at which a word can be fetched whole: the state's own where Fetch accepts it, else 0, the entry
point (R50, R90). -/
def fetchablePc (pc : Nat) : Nat := if pc + 2 < Config.memSize then pc else 0

/-- `s` RUNNING, with the three bytes of a table word in the fetch window at its pc. It stands for the
loader, which is the only writer of memory (R88; log 10). -/
def placeWord (s : State) (nbits w : Nat) : State :=
  let pc := fetchablePc s.pc
  { s with
    mem := Memory.poke (Memory.poke (Memory.poke s.mem pc (tableByte nbits w 0))
      (pc + 1) (tableByte nbits w 1)) (pc + 2) (tableByte nbits w 2)
    pc := pc
    run := .running }

end Sys2Proof.Machine
end

