-- ==== Sys2Proof/Machine/Step.lean ====
section
/-! DEFINITION. One step of the machine: fetch, decode, dispatch and the PC advance (40_cycle.md R52). -/

namespace Sys2Proof.Machine

/-- `Step(s)` (R52), and the final states, which no step leaves (R53). A Fetch that raises is taken from `s`
itself, before any instruction effect (R50, R76). -/
def step (s : State) : Host.Outcome State Fault Refusal :=
  match s.run with
  | .running =>
    match fetch s with
    | .error e => raise e s
    | .ok l => exec (instrOf l.opcode l.operandA l.operandB) s
  | .halted => stayFinal s
  | .faulted _ => stayFinal s

/-- `s` with a word of the opcode table placed so that the very next step runs it (log 10). -/
def State.withFetchWord (s : State) (nbits w : Nat) : State := placeWord s nbits w

end Sys2Proof.Machine
end

