-- ==== Sys2Proof/Safety.lean ====
section
/-! DEFINITION. What counts as a safe state and a safe run, in the terms the statements use. -/

namespace Sys2Proof.Machine

/-- The byte of memory at an address; the form in which the statements read memory (R8, R22). -/
def State.byteAt (s : State) (addr : Nat) : Byte := Memory.peek s.mem addr

/-- The state `s` with the run state FAULTED(e) and nothing else changed (R76). -/
def State.withFault (s : State) (e : Fault) : State := { s with run := .faulted e }

/-- What a step whose Fetch raises leaves: the first address above 255 among `pc`, `pc + 1`, `pc + 2` (R50,
R72). -/
def State.fetchFault (s : State) : State :=
  s.withFault (.outOfRange .memory (max s.pc 256) .read s.pc)

/-- The exact place where each fault can be raised from `s` (R72, R74), read off memory at `pc`: Fetch
at the top of memory; the write of `x[a]` by LDI; the read of `x[a]` by PRN, ADD and MUL; the read of
`x[b]` by ADD and MUL once `a` names a register. UnsupportedOperation has none (R73). -/
def FaultExplained (s : State) : Fault → Prop
  | .outOfRange .memory index access pc =>
    254 ≤ s.pc ∧ index = max s.pc 256 ∧ access = .read ∧ pc = s.pc
  | .outOfRange .register index access pc =>
    s.pc ≤ 253 ∧ 7 < index ∧ pc = s.pc ∧
      ((access = .write ∧ s.byteAt s.pc = 0x82#8 ∧ index = (s.byteAt (s.pc + 1)).toNat) ∨
       (access = .read ∧ s.byteAt s.pc ∈ [0x47#8, 0xA0#8, 0xA2#8] ∧
          index = (s.byteAt (s.pc + 1)).toNat) ∨
       (access = .read ∧ s.byteAt s.pc ∈ [0xA0#8, 0xA2#8] ∧
          (s.byteAt (s.pc + 1)).toNat ≤ 7 ∧ index = (s.byteAt (s.pc + 2)).toNat))
  | .unsupportedOperation _ _ => False

/-- The invariant of the machine. -/
structure Inv (s : State) : Prop where
  /-- Memory is canonical and inside its 256 cells (R8, log 12). -/
  memory : Memory.wf s.mem
  /-- The PC holds 0..256 (R14). -/
  pcBound : s.pc ≤ 256
  /-- `FLAGS_SIZE` is at least 1 (R5, R17). -/
  flagsPresent : 1 ≤ s.flags.length
  /-- A HALTED machine stands at an HLT that Fetch could read whole (R15, R60). -/
  haltedAtHlt : s.run = .halted → s.pc ≤ 253 ∧ s.byteAt s.pc = 0x01#8
  /-- A FAULTED machine stands at the instruction that raised its fault (R15, R76). -/
  faultedAtCause : ∀ e, s.run = .faulted e → FaultExplained s e

/-- `k` steps of the machine from `s`. -/
def runSteps (k : Nat) (s : State) : Host.Outcome State Fault Refusal := Host.Core.run core k s

/-- A run from `s` is safe when it never ends FAULTED (R16: HALTED is the clean stop). -/
def SafeRun (s : State) : Prop := ∀ k t, runSteps k s = .next t → ∀ e, t.run ≠ .faulted e

end Sys2Proof.Machine
end

