-- ==== Sys2Proof/Certificates/Slice0/Obligations.lean ====
section
/-! DEFINITION. The statements for the provers. Each docstring names the rules it formalises. -/

open Sys2Proof Sys2Proof.Machine

/-! ### Encoding -/

/-- Decoding the encoding of any well-formed instruction, whatever bytes follow it, gives the instruction
and those bytes back (30_encoding.md sections 1 to 3). -/
def Obligations.DecodeOfEncodeIsTheInstruction : Prop :=
  ∀ (i : Instr) (rest : List Byte), i.wf = true → decode (encode i ++ rest) = .ok (i, rest)

/-- What the decoder reads is well formed and is spelled by exactly the bytes it consumed, so no two
byte strings spell one instruction (30_encoding.md sections 1 to 5). -/
def Obligations.DecodedBytesAreTheEncoding : Prop :=
  ∀ (bytes : List Byte) (i : Instr) (rest : List Byte),
    decode bytes = .ok (i, rest) → i.wf = true ∧ bytes = encode i ++ rest

/-- R51: the decoder's table, total on the 256 byte values. -/
def Obligations.OpcodeTableIsTotal : Prop :=
  decodeOpcode 0x01#8 = (.hlt, 1) ∧ decodeOpcode 0x82#8 = (.ldi, 3) ∧
  decodeOpcode 0x47#8 = (.prn, 2) ∧ decodeOpcode 0xA0#8 = (.add, 3) ∧
  decodeOpcode 0xA2#8 = (.mul, 3) ∧
  ∀ op : Byte, op ≠ 0x01#8 → op ≠ 0x82#8 → op ≠ 0x47#8 → op ≠ 0xA0#8 → op ≠ 0xA2#8 →
    decodeOpcode op = (.unknown, 1)

/-- Byte strings written out from the encoding tables decode to the instructions they stand for; 0x84 is
one byte long whatever its top bits are (30_encoding.md sections 3 and 4). -/
def Obligations.SampleWordsDecode : Prop :=
  decode [0b00000001#8] = .ok (.hlt, []) ∧
  decode [0b10000010#8, 0b00000000#8, 0b00001000#8] = .ok (.ldi 0#8 8#8, []) ∧
  decode [0b01000111#8, 0b00000111#8] = .ok (.prn 7#8, []) ∧
  decode [0b10100000#8, 0b00000010#8, 0b00000101#8] = .ok (.add 2#8 5#8, []) ∧
  decode [0b10100010#8, 0b00000011#8, 0b00001001#8] = .ok (.mul 3#8 9#8, []) ∧
  decode [0b10000100#8, 0b10000010#8] = .ok (.unrecognized 0x84#8, [0x82#8])

/-- An instruction word of the opcode table, placed where the next step fetches, is what that step runs:
every table word decodes, and the step is `exec` of the decoded instruction. The placing is the model's
own (log 10). -/
def Obligations.PlacedWordIsWhatTheNextStepRuns : Prop :=
  ∀ (s : State) (nbits w : Nat), Memory.wf s.mem →
    ∃ i, decodeTableWord nbits w = some i ∧ i.wf = true ∧
      step (s.withFetchWord nbits w) = exec i (s.withFetchWord nbits w)

/-! ### Fetch and step -/

/-- R50: the three reads of Fetch in their order, for every opcode, and the fault of the first address
above 255; at 254, 255 and 256 the step faults with address 256 before any instruction effect, whatever
byte is at `pc`. -/
def Obligations.FetchReadsThreeBytesAndReportsTheFirstBadAddress : Prop :=
  (∀ s : State, fetch s =
    if 255 < s.pc then .error (.outOfRange .memory s.pc .read s.pc)
    else if 255 < s.pc + 1 then .error (.outOfRange .memory (s.pc + 1) .read s.pc)
    else if 255 < s.pc + 2 then .error (.outOfRange .memory (s.pc + 2) .read s.pc)
    else .ok ⟨s.byteAt s.pc, s.byteAt (s.pc + 1), s.byteAt (s.pc + 2)⟩) ∧
  (∀ s : State, s.run = .running → s.pc = 254 ∨ s.pc = 255 ∨ s.pc = 256 →
    step s = .next (s.withFault (.outOfRange .memory 256 .read s.pc)))

/-- A step runs the decoded instruction: where the three bytes at `pc` decode to `i`, and where the bytes
at `pc` spell a well-formed `i`, the step of a RUNNING machine is `exec i`, which moves the pc itself
(40_cycle.md section 3). -/
def Obligations.StepRunsTheDecodedInstruction : Prop :=
  (∀ (s : State) (i : Instr) (rest : List Byte), s.run = .running → s.pc ≤ 253 →
    decode [s.byteAt s.pc, s.byteAt (s.pc + 1), s.byteAt (s.pc + 2)] = .ok (i, rest) →
    step s = exec i s) ∧
  (∀ (s : State) (i : Instr), s.run = .running → s.pc ≤ 253 → i.wf = true →
    (∀ (k : Nat) (h : k < (encode i).length), s.byteAt (s.pc + k) = (encode i)[k]) →
    step s = exec i s)

/-- No instruction and no step is stopped by the model: each answers a next state
(93_implementation_defined.md section 1, 40_cycle.md section 3; for the final states, log 4). -/
def Obligations.EveryInstructionAndStepAnswersANextState : Prop :=
  (∀ (i : Instr) (s : State), ∃ t, exec i s = .next t) ∧ ∀ s : State, ∃ t, step s = .next t

/-- HALTED and FAULTED machines stay unchanged for good, however many steps are asked for
(40_cycle.md section 3; that a step is answered at all is the model's choice, log 4). -/
def Obligations.FinalStatesStayUnchanged : Prop :=
  ∀ (s : State) (k : Nat), s.run ≠ .running → runSteps k s = .next s

/-- R76: a step that raises `e` goes to the state it began in with `run = FAULTED(e)`, and nothing else
changed; `e` holds the pc of the step. -/
def Obligations.FaultKeepsTheStateBeforeTheStep : Prop :=
  ∀ (s t : State) (e : Fault), s.run = .running → step s = .next t → t.run = .faulted e →
    t = s.withFault e ∧
      ((∃ target index access, e = .outOfRange target index access s.pc) ∨
        ∃ op, e = .unsupportedOperation op s.pc)

/-- A step that raises nothing writes at most one place beside the pc: one register, one byte of output,
or the run state (40_cycle.md section 3). -/
def Obligations.StepWritesAtMostOnePlace : Prop :=
  ∀ (s t : State), s.run = .running → step s = .next t → (∀ e, t.run ≠ .faulted e) →
    (∃ (a : Nat) (h : a < 8) (v : Byte), t = { s with x := s.x.set a v h, pc := t.pc }) ∨
    (∃ v : Byte, t = { s with out := s.out ++ [v], pc := t.pc }) ∨
    t = { s with run := .halted } ∨
    t = { s with pc := t.pc }

/-- R54: a step that raises nothing advances the pc by the decoder's width, exactly; a step that raises,
and HLT, leave it. -/
def Obligations.PcAdvancesByTheWidth : Prop :=
  ∀ (s t : State), s.run = .running → step s = .next t →
    (t.run = .running → t.pc = s.pc + (decodeOpcode (s.byteAt s.pc)).2) ∧
    (t.run ≠ .running → t.pc = s.pc) ∧
    (decodeOpcode (s.byteAt s.pc)).2 ∈ [1, 2, 3]

/-- R16: the two transitions of the run state, RUNNING to HALTED only on fetching HLT and RUNNING to
FAULTED only when the step raises; no step leaves a final state; reset is RUNNING. -/
def Obligations.RunStateTransitions : Prop :=
  State.reset.run = .running ∧
  (∀ (s t : State), s.run = .running → step s = .next t →
    (t.run = .halted ↔ fetch s = .ok ⟨0x01#8, s.byteAt (s.pc + 1), s.byteAt (s.pc + 2)⟩)) ∧
  (∀ (s t : State) (e : Fault), s.run = .running → step s = .next t → t.run = .faulted e →
    step s = raise e s) ∧
  (∀ (s t : State), s.run ≠ .running → step s = .next t → t.run = s.run)

/-- R72 and R74: from a RUNNING machine, a step raises exactly the fault that the table gives, read off the
bytes at `pc`, and no other; Fetch comes before the register checks and index `a` before index `b`. -/
def Obligations.FaultsAreRaisedExactlyWhereTheTableSays : Prop :=
  ∀ (s t : State), s.run = .running → step s = .next t →
    ∀ e : Fault, t.run = .faulted e ↔ FaultExplained s e

/-- R59: the candidate operand bytes that an instruction does not use never matter. Where the opcode is not
LDI, ADD or MUL, memories that agree on the opcode (and, for PRN, on operand_a) take the same step. -/
def Obligations.UnusedOperandBytesAreDiscarded : Prop :=
  ∀ (s t : State) (m : List Host.Cell), s.run = .running →
    s.byteAt s.pc ≠ 0x82#8 → s.byteAt s.pc ≠ 0xA0#8 → s.byteAt s.pc ≠ 0xA2#8 →
    Memory.peek m s.pc = s.byteAt s.pc →
    (s.byteAt s.pc = 0x47#8 → Memory.peek m (s.pc + 1) = s.byteAt (s.pc + 1)) →
    step s = .next t → step { s with mem := m } = .next { t with mem := m }

/-- R94: no instruction completes above address 253; from 253 a 3-byte instruction ends at pc 256 and a
2-byte one at pc 255, and the step after either faults with address 256. -/
def Obligations.TopOfMemoryHazard : Prop :=
  (∀ (s t : State), s.run = .running → step s = .next t → (∀ e, t.run ≠ .faulted e) →
    s.pc ≤ 253 ∧ (t.run = .running → t.pc = s.pc + (decodeOpcode (s.byteAt s.pc)).2)) ∧
  (∀ (s t : State), s.run = .running → s.pc = 253 → step s = .next t → t.run = .running →
    ((decodeOpcode (s.byteAt 253)).2 = 3 →
      t.pc = 256 ∧ step t = .next (t.withFault (.outOfRange .memory 256 .read 256))) ∧
    ((decodeOpcode (s.byteAt 253)).2 = 2 →
      t.pc = 255 ∧ step t = .next (t.withFault (.outOfRange .memory 256 .read 255))))

/-! ### The instructions -/

/-- R60: HLT's encoding, its effect, the Fetch fault that comes first at 254 and above, and that nothing else
halts the machine; HALTED exits with status 0. -/
def Obligations.HltHalts : Prop :=
  (∀ a b : Byte, instrOf 0x01#8 a b = .hlt) ∧ encode .hlt = [0x01#8] ∧
  (∀ s : State, exec .hlt s = .next { s with run := .halted }) ∧
  (∀ s : State, s.run = .running → s.byteAt s.pc = 0x01#8 →
    step s = .next (if s.pc ≤ 253 then { s with run := .halted } else s.fetchFault)) ∧
  (∀ s t : State, s.run = .running → step s = .next t → t.run = .halted →
    s.pc ≤ 253 ∧ s.byteAt s.pc = 0x01#8) ∧
  (∀ s t : State, s.run = .halted → step s = .next t → t = s) ∧
  exitStatus .halted = some 0

/-- R61: LDI's encoding, its effect, its own fault, and Fetch's fault. -/
def Obligations.LdiLoadsTheLiteral : Prop :=
  (∀ a b : Byte, instrOf 0x82#8 a b = .ldi a b ∧ encode (.ldi a b) = [0x82#8, a, b]) ∧
  (∀ (s : State) (a b : Byte) (ha : a.toNat < 8),
    exec (.ldi a b) s = .next { s with x := s.x.set a.toNat b ha, pc := s.pc + 3 }) ∧
  (∀ (s : State) (a b : Byte), 7 < a.toNat →
    exec (.ldi a b) s = .next (s.withFault (.outOfRange .register a.toNat .write s.pc))) ∧
  (∀ s : State, s.run = .running → s.byteAt s.pc = 0x82#8 →
    step s = if s.pc ≤ 253 then exec (.ldi (s.byteAt (s.pc + 1)) (s.byteAt (s.pc + 2))) s
      else .next s.fetchFault)

/-- R62: PRN's encoding, its effect, its own fault, and Fetch's fault. -/
def Obligations.PrnEmitsTheRegister : Prop :=
  (∀ a b : Byte, instrOf 0x47#8 a b = .prn a ∧ encode (.prn a) = [0x47#8, a]) ∧
  (∀ (s : State) (a : Byte) (ha : a.toNat < 8),
    exec (.prn a) s = .next { s with out := s.out ++ [s.x[a.toNat]], pc := s.pc + 2 }) ∧
  (∀ (s : State) (a : Byte), 7 < a.toNat →
    exec (.prn a) s = .next (s.withFault (.outOfRange .register a.toNat .read s.pc))) ∧
  (∀ s : State, s.run = .running → s.byteAt s.pc = 0x47#8 →
    step s = if s.pc ≤ 253 then exec (.prn (s.byteAt (s.pc + 1))) s else .next s.fetchFault)

/-- R69: ADD's encoding, its effect, its own faults with index `a` first, and Fetch's fault. -/
def Obligations.AddAddsModulo256 : Prop :=
  (∀ a b : Byte, instrOf 0xA0#8 a b = .add a b ∧ encode (.add a b) = [0xA0#8, a, b]) ∧
  (∀ (s : State) (a b : Byte) (ha : a.toNat < 8) (hb : b.toNat < 8),
    exec (.add a b) s = .next
      { s with
        x := s.x.set a.toNat
          (BitVec.ofNat 8 (((s.x[a.toNat]).toNat + (s.x[b.toNat]).toNat) % 256)) ha
        pc := s.pc + 3 }) ∧
  (∀ (s : State) (a b : Byte), 7 < a.toNat →
    exec (.add a b) s = .next (s.withFault (.outOfRange .register a.toNat .read s.pc))) ∧
  (∀ (s : State) (a b : Byte), a.toNat ≤ 7 → 7 < b.toNat →
    exec (.add a b) s = .next (s.withFault (.outOfRange .register b.toNat .read s.pc))) ∧
  (∀ s : State, s.run = .running → s.byteAt s.pc = 0xA0#8 →
    step s = if s.pc ≤ 253 then exec (.add (s.byteAt (s.pc + 1)) (s.byteAt (s.pc + 2))) s
      else .next s.fetchFault)

/-- R70: MUL's encoding, its effect, its own faults with index `a` first, and Fetch's fault. -/
def Obligations.MulMultipliesModulo256 : Prop :=
  (∀ a b : Byte, instrOf 0xA2#8 a b = .mul a b ∧ encode (.mul a b) = [0xA2#8, a, b]) ∧
  (∀ (s : State) (a b : Byte) (ha : a.toNat < 8) (hb : b.toNat < 8),
    exec (.mul a b) s = .next
      { s with
        x := s.x.set a.toNat
          (BitVec.ofNat 8 (((s.x[a.toNat]).toNat * (s.x[b.toNat]).toNat) % 256)) ha
        pc := s.pc + 3 }) ∧
  (∀ (s : State) (a b : Byte), 7 < a.toNat →
    exec (.mul a b) s = .next (s.withFault (.outOfRange .register a.toNat .read s.pc))) ∧
  (∀ (s : State) (a b : Byte), a.toNat ≤ 7 → 7 < b.toNat →
    exec (.mul a b) s = .next (s.withFault (.outOfRange .register b.toNat .read s.pc))) ∧
  (∀ s : State, s.run = .running → s.byteAt s.pc = 0xA2#8 →
    step s = if s.pc ≤ 253 then exec (.mul (s.byteAt (s.pc + 1)) (s.byteAt (s.pc + 2))) s
      else .next s.fetchFault)

/-- R55: an unrecognized opcode's encoding, its effect, and Fetch's fault, its only one. -/
def Obligations.UnrecognizedOpcodeAdvancesByOne : Prop :=
  (∀ op a b : Byte, op ∉ [0x01#8, 0x82#8, 0x47#8, 0xA0#8, 0xA2#8] →
    instrOf op a b = .unrecognized op ∧ encode (.unrecognized op) = [op]) ∧
  (∀ (s : State) (op : Byte), exec (.unrecognized op) s = .next { s with pc := s.pc + 1 }) ∧
  (∀ s : State, s.run = .running → s.byteAt s.pc ∉ [0x01#8, 0x82#8, 0x47#8, 0xA0#8, 0xA2#8] →
    step s = .next (if s.pc ≤ 253 then { s with pc := s.pc + 1 } else s.fetchFault))

/-! ### Frames -/

/-- Frame of LDI, ADD and MUL: every register but `x[a]`, the Flags, the output and every byte of memory
are unchanged, and the run state is unchanged or FAULTED with nothing written at all (10_state.md section 2,
40_cycle.md section 3). -/
def Obligations.FrameOfRegisterWriters : Prop :=
  ∀ (s t : State) (i : Instr) (a b : Byte), i = .ldi a b ∨ i = .add a b ∨ i = .mul a b →
    exec i s = .next t →
    (∀ (j : Nat) (h : j < 8), j ≠ a.toNat → t.x[j] = s.x[j]) ∧
    t.flags = s.flags ∧ t.out = s.out ∧
    (∀ addr, t.byteAt addr = s.byteAt addr) ∧
    (t.run = s.run ∨ ∃ e, t = s.withFault e)

/-- Frame of PRN: every register, the Flags and every byte of memory are unchanged, and the run state is
unchanged or FAULTED with nothing emitted (43_prn.md). -/
def Obligations.FrameOfPrn : Prop :=
  ∀ (s t : State) (a : Byte), exec (.prn a) s = .next t →
    (∀ (j : Nat) (h : j < 8), t.x[j] = s.x[j]) ∧ t.flags = s.flags ∧
    (∀ addr, t.byteAt addr = s.byteAt addr) ∧
    (t.run = s.run ∨ ∃ e, t = s.withFault e)

/-- Frame of HLT and of an unrecognized opcode: every register, the Flags, the output and every byte of
memory are unchanged; HLT leaves the pc, and an unrecognized opcode leaves the run state (41_hlt.md,
40_cycle.md section 3). -/
def Obligations.FrameOfHltAndUnrecognized : Prop :=
  ∀ (s t : State) (i : Instr) (op : Byte), i = .hlt ∨ i = .unrecognized op → exec i s = .next t →
    (∀ (j : Nat) (h : j < 8), t.x[j] = s.x[j]) ∧ t.flags = s.flags ∧ t.out = s.out ∧
    (∀ addr, t.byteAt addr = s.byteAt addr) ∧
    (i = .hlt → t.pc = s.pc) ∧ (i = .unrecognized op → t.run = s.run)

/-- R25: no instruction writes memory. HLT changes the run state, LDI, ADD and MUL a register, PRN the
output; and memory after any number of steps is what it was. -/
def Obligations.NoInstructionWritesMemory : Prop :=
  (∀ (s t : State), exec .hlt s = .next t → t = { s with run := t.run }) ∧
  (∀ (s t : State) (a b : Byte) (i : Instr), i = .ldi a b ∨ i = .add a b ∨ i = .mul a b →
    exec i s = .next t → t = { s with x := t.x, pc := t.pc, run := t.run }) ∧
  (∀ (s t : State) (a : Byte), exec (.prn a) s = .next t →
    t = { s with out := t.out, pc := t.pc, run := t.run }) ∧
  (∀ (i : Instr) (s t : State), exec i s = .next t → t.mem = s.mem) ∧
  (∀ (k : Nat) (s t : State), runSteps k s = .next t → t.mem = s.mem)

/-- R17: the Flags hold FLAGS_SIZE ≥ 1 bytes at reset, whatever they are; no run writes them, none reads them,
and the trace does not show them. -/
def Obligations.FlagsAreInert : Prop :=
  1 ≤ Config.flagsSize ∧ State.reset.flags.length = Config.flagsSize ∧
  (∀ (r : Vector Byte 8) (f : List Byte), (State.construct r f).flags = f) ∧
  (∀ (k : Nat) (s t : State) (f : List Byte), runSteps k s = .next t →
    t.flags = s.flags ∧ runSteps k { s with flags := f } = .next { t with flags := f }) ∧
  (∀ (enabled : Bool) (c : HexCase) (s : State) (f : List Byte),
    traceLine enabled c { s with flags := f } = traceLine enabled c s)

/-- R18: the output is empty after construction; in a step only PRN appends to it, one byte, the register's
value; a run only appends; and no run reads it back. -/
def Obligations.OnlyPrnAppendsToTheOutput : Prop :=
  (∀ (r : Vector Byte 8) (f : List Byte), (State.construct r f).out = []) ∧
  (∀ (s t : State), s.run = .running → step s = .next t → t.out ≠ s.out →
    s.byteAt s.pc = 0x47#8 ∧
    ∃ h : (s.byteAt (s.pc + 1)).toNat < 8, t.out = s.out ++ [s.x[(s.byteAt (s.pc + 1)).toNat]]) ∧
  (∀ (k : Nat) (s t : State), runSteps k s = .next t → ∃ added : List Byte, t.out = s.out ++ added ∧
    ∀ o : List Byte, runSteps k { s with out := o } = .next { t with out := o ++ added })

/-! ### The alu -/

/-- R65: the alu's contract, with its checks in their order. -/
def Obligations.AluContract : Prop :=
  ∀ (op : AluOp) (a b : Byte) (s : State),
    (aluFunction op = none → alu op a b s = .error (.unsupportedOperation op s.pc)) ∧
    (∀ f, aluFunction op = some f →
      (7 < a.toNat → alu op a b s = .error (.outOfRange .register a.toNat .read s.pc)) ∧
      (a.toNat ≤ 7 → 7 < b.toNat →
        alu op a b s = .error (.outOfRange .register b.toNat .read s.pc)) ∧
      ∀ (ha : a.toNat < 8) (hb : b.toNat < 8),
        alu op a b s = .ok { s with x := s.x.set a.toNat (f (s.x[a.toNat]) (s.x[b.toNat])) ha })

/-- R67: any operation other than ADD and MUL raises UnsupportedOperation before a register is read, and
no step raises it. -/
def Obligations.UnsupportedOperationIsUnreachable : Prop :=
  (∀ (op : AluOp) (a b : Byte) (s : State), op ≠ .add → op ≠ .mul →
    alu op a b s = .error (.unsupportedOperation op s.pc)) ∧
  (∀ (s t : State), s.run = .running → step s = .next t →
    ∀ (op : AluOp) (pc : Nat), t.run ≠ .faulted (.unsupportedOperation op pc))

/-- R68: ADD and MUL are the exact unsigned sum and product modulo 256, and a signed multiply would give the
same byte; the Flags are not written; no other operation exists. -/
def Obligations.AluArithmeticLaws : Prop :=
  (∃ f g : Byte → Byte → Byte, aluFunction .add = some f ∧ aluFunction .mul = some g ∧
    ∀ u v : Byte, (f u v).toNat = (u.toNat + v.toNat) % 256 ∧
      (g u v).toNat = (u.toNat * v.toNat) % 256 ∧ g u v = BitVec.ofInt 8 (u.toInt * v.toInt)) ∧
  (∀ (op : AluOp) (a b : Byte) (s t : State), alu op a b s = .ok t → t.flags = s.flags) ∧
  (∀ op : AluOp, op ≠ .add → op ≠ .mul → aluFunction op = none)

/-! ### Registers and memory -/

/-- R10 and R12: a register index 0..7 reads and writes that register alone; an index from 8 to 255 faults,
never taken modulo 8, and no register changes. -/
def Obligations.RegisterReadAndWrite : Prop :=
  (∀ (i : Nat) (s : State) (h : i ≤ 7), readReg i s = .ok (s.x[i])) ∧
  (∀ (i : Nat) (s : State), 7 < i → readReg i s = .error (.outOfRange .register i .read s.pc)) ∧
  (∀ (i : Nat) (v : Byte) (s : State), i ≤ 7 → ∃ t, writeReg i v s = .ok t ∧
    t = { s with x := t.x } ∧
    (∀ (j : Nat) (h : j < 8), t.x[j] = if j = i then v else s.x[j])) ∧
  (∀ (i : Nat) (v : Byte) (s : State), 7 < i →
    writeReg i v s = .error (.outOfRange .register i .write s.pc))

/-- R22: one byte is read from an address 0..255, and an address above 255 raises. -/
def Obligations.MemoryReadRule : Prop :=
  ∀ (addr : Nat) (s : State),
    (addr ≤ 255 → memRead addr s = .ok (s.byteAt addr)) ∧
    (255 < addr → memRead addr s = .error (.outOfRange .memory addr .read s.pc))

/-- A byte written to an address 0..255 is read back from it (20_memory.md R24); every other address reads as
before, nothing but memory changes, and a write above 255 raises (R23). That memory is canonical before the
write and stays so after it is the model's own form of memory, the DESIGN CHOICE of log 12. -/
def Obligations.MemoryRoundTrip : Prop :=
  (∀ (addr : Nat) (v : Byte) (s : State), Memory.wf s.mem → addr ≤ 255 →
    ∃ t, memWrite addr v s = .ok t ∧ memRead addr t = .ok v ∧
      (∀ b, b ≠ addr → t.byteAt b = s.byteAt b) ∧ Memory.wf t.mem ∧ t = { s with mem := t.mem }) ∧
  (∀ (addr : Nat) (v : Byte) (s : State), 255 < addr →
    memWrite addr v s = .error (.outOfRange .memory addr .write s.pc))

/-- Canonical memories that read the same at every address are the same list (the model's own form of memory,
log 12). -/
def Obligations.CanonicalMemoriesAreExtensional : Prop :=
  ∀ m n : List Host.Cell, Memory.wf m → Memory.wf n →
    (∀ addr, Memory.peek m addr = Memory.peek n addr) → m = n

/-! ### Reset, loading and the end of a run -/

/-- Construction gives every field its reset value, whatever the open register and Flags contents are, and
`State.reset` is the construction with the open parameters themselves (70_reset_and_hazards.md section 1; logs
1 and 2). -/
def Obligations.ResetValues : Prop :=
  (∀ (r : Vector Byte 8) (f : List Byte),
    (∀ addr, (State.construct r f).byteAt addr = 0#8) ∧ (State.construct r f).x = r ∧
    (State.construct r f).pc = 0 ∧ (State.construct r f).run = .running ∧
    (State.construct r f).flags = f ∧ (State.construct r f).out = []) ∧
  State.reset = State.construct State.reset.x State.reset.flags ∧
  (∀ (i : Nat) (h : i < 8), State.reset.x[i] = Config.regInit ⟨i, h⟩) ∧
  State.reset.flags = List.ofFn Config.flagsInit

/-- R88 and R34: an image of at most 256 bytes is written whole from address 0, every other address reads 0
up to 255, addresses above 255 raise, and nothing but memory changes. -/
def Obligations.LoaderWritesTheImage : Prop :=
  ∀ (image : List Byte) (r : Vector Byte 8) (f : List Byte), image.length ≤ 256 →
    ∃ t, load image (State.construct r f) = .ok t ∧ t = { State.construct r f with mem := t.mem } ∧
      (∀ (k : Nat) (h : k < image.length), memRead k t = .ok image[k]) ∧
      (∀ addr, image.length ≤ addr → addr ≤ 255 → memRead addr t = .ok 0#8) ∧
      (∀ addr, 255 < addr → memRead addr t = .error (.outOfRange .memory addr .read t.pc))

/-- R89: an image of more than 256 bytes raises OutOfRange(Memory, 256, Write) while loading, and the host
exits nonzero without a step. (The pc that the fault records is the model's choice, log 6, and is left
open here.) -/
def Obligations.LongImagesNeverStart : Prop :=
  ∀ (image : List Byte) (s : State), 256 < image.length →
    ∃ e pc, e = Fault.outOfRange .memory 256 .write pc ∧ load image s = .error e ∧
      boot (some image) s = .loadFailed e ∧
      ∃ status : Int, status ≠ 0 ∧ (boot (some image) s).exitStatus = some status

/-- HALTED exits with status 0; FAULTED exits with the nonzero EXIT_FAULT_STATUS and is reported
(60_exceptions.md R82). A malformed image and a loader fault exit nonzero (R82, R85, R89); that they exit with
the same EXIT_FAULT_STATUS as FAULTED is the model's own, the DESIGN CHOICE of log 7. -/
def Obligations.ExitStatusOfARun : Prop :=
  Config.exitFaultStatus ≠ 0 ∧ exitStatus .halted = some 0 ∧
  (∀ e : Fault, exitStatus (.faulted e) = some Config.exitFaultStatus ∧
    report (.faulted e) = some e) ∧
  (∀ s : State, (boot none s).exitStatus = some Config.exitFaultStatus) ∧
  (∀ e : Fault, (Boot.loadFailed e).exitStatus = some Config.exitFaultStatus)

/-- R63: the output renders as one line a byte, in order: the decimal numeral of the byte, 1 to 3 digits
without leading zeros, then LF (0x0A). -/
def Obligations.OutputRendersAsDecimalLines : Prop :=
  renderOutput [] = [] ∧
  (∀ (out : List Byte) (v : Byte),
    renderOutput (out ++ [v]) = renderOutput out ++ Nat.toDigits 10 v.toNat ++ [Char.ofNat 0x0A]) ∧
  (∀ v : Byte, 1 ≤ (decimalNumeral v).length ∧ (decimalNumeral v).length ≤ 3)

/-- R84: with the trace enabled, a RUNNING step whose Fetch succeeds produces the line of the fetched bytes
and the registers of before the step, each as two hex digits; no other step produces one. -/
def Obligations.TraceLineOfAStep : Prop :=
  (∀ (c : HexCase) (s : State), s.run = .running → s.pc ≤ 253 →
    traceLine true c s = some
      ("TRACE: ".toList ++ hexTwo c s.pc ++ " | ".toList ++ hexTwo c (s.byteAt s.pc).toNat ++
        " ".toList ++ hexTwo c (s.byteAt (s.pc + 1)).toNat ++ " ".toList ++
        hexTwo c (s.byteAt (s.pc + 2)).toNat ++ " | ".toList ++
        hexTwo c (s.x[0]).toNat ++ " ".toList ++ hexTwo c (s.x[1]).toNat ++ " ".toList ++
        hexTwo c (s.x[2]).toNat ++ " ".toList ++ hexTwo c (s.x[3]).toNat ++ " ".toList ++
        hexTwo c (s.x[4]).toNat ++ " ".toList ++ hexTwo c (s.x[5]).toNat ++ " ".toList ++
        hexTwo c (s.x[6]).toNat ++ " ".toList ++ hexTwo c (s.x[7]).toNat)) ∧
  (∀ n : Nat, n < 256 →
    hexTwo .lower n =
      ["0123456789abcdef".toList.getD (n / 16) ' ', "0123456789abcdef".toList.getD (n % 16) ' '] ∧
    hexTwo .upper n =
      ["0123456789ABCDEF".toList.getD (n / 16) ' ', "0123456789ABCDEF".toList.getD (n % 16) ' ']) ∧
  (∀ (c : HexCase) (s : State), s.run ≠ .running ∨ 254 ≤ s.pc → traceLine true c s = none) ∧
  (∀ (c : HexCase) (s : State), traceLine false c s = none)

/-! ### Whole-machine statements -/

/-- The reset state, every constructed state with at least one Flags byte, and what the loader makes of a
RUNNING state that meets the invariant, meet it (70_reset_and_hazards.md sections 1 and 2). -/
def Obligations.ResetAndLoadingMeetTheInvariant : Prop :=
  Inv State.reset ∧
  (∀ (r : Vector Byte 8) (f : List Byte), f ≠ [] → Inv (State.construct r f)) ∧
  (∀ (image : List Byte) (s t : State), s.run = .running → Inv s → load image s = .ok t → Inv t)

/-- Every step keeps the invariant: memory stays canonical, the pc within 0..256, the Flags present, a HALTED
machine stands at an HLT, and a FAULTED one at the instruction that explains its fault (10_state.md sections 1,
3, 4 and 5, 60_exceptions.md sections 1 to 3; the final states' own step is log 4). -/
def Obligations.EveryStepKeepsTheInvariant : Prop :=
  ∀ s t : State, Inv s → step s = .next t → Inv t

/-- R93: every RUNNING machine is HALTED or FAULTED within 255 steps less its pc (255 from pc 0), whatever its
registers, memory and output; every run from reset is such a run; and the empty image needs all 255. -/
def Obligations.EveryRunEndsWithin255Steps : Prop :=
  (∀ s : State, s.run = .running →
    ∃ (k : Nat) (t : State), k ≤ 255 - min s.pc 254 ∧ runSteps k s = .next t ∧ t.run ≠ .running) ∧
  (∀ (image : List Byte) (r : Vector Byte 8) (f : List Byte) (s : State),
    load image (State.construct r f) = .ok s →
    ∃ (k : Nat) (t : State), k ≤ 255 ∧ runSteps k s = .next t ∧ t.run ≠ .running) ∧
  (∀ (r : Vector Byte 8) (f : List Byte), ∃ t, runSteps 254 (State.construct r f) = .next t ∧
    t.run = .running ∧ t.pc = 254)

/-- Registers never steer control: runs that differ only in the registers they begin with have the same pc,
the same run state (faults included) and as many bytes of output, so whether and where a program ends does not
depend on REG_INIT (40_cycle.md section 3, 70_reset_and_hazards.md section 2). -/
def Obligations.RegistersNeverSteerControl : Prop :=
  ∀ (k : Nat) (s t : State) (x : Vector Byte 8), runSteps k s = .next t →
    ∃ u, runSteps k { s with x := x } = .next u ∧ u.pc = t.pc ∧ u.run = t.run ∧
      u.out.length = t.out.length

/-- A safe run halts: a RUNNING machine whose run never faults reaches HALTED within 255 steps, at an HLT that
stands at or above the pc it began from and no higher than 253 (70_reset_and_hazards.md sections 2 to 4). -/
def Obligations.SafeRunsReachAnHlt : Prop :=
  ∀ s : State, s.run = .running → SafeRun s →
    ∃ (k : Nat) (t : State), k ≤ 255 ∧ runSteps k s = .next t ∧ t.run = .halted ∧
      s.pc ≤ t.pc ∧ t.pc ≤ 253 ∧ s.byteAt t.pc = 0x01#8
end

