-- ==== Sys2Proof/Laws/Decode.lean ====
section
/-! SUPPORT. The decoder as a case split over the opcode byte. -/

namespace Sys2Proof

@[simp] theorem decodeOpcode_hlt : decodeOpcode 0x01#8 = (.hlt, 1) := rfl
@[simp] theorem decodeOpcode_ldi : decodeOpcode 0x82#8 = (.ldi, 3) := rfl
@[simp] theorem decodeOpcode_prn : decodeOpcode 0x47#8 = (.prn, 2) := rfl
@[simp] theorem decodeOpcode_add : decodeOpcode 0xA0#8 = (.add, 3) := rfl
@[simp] theorem decodeOpcode_mul : decodeOpcode 0xA2#8 = (.mul, 3) := rfl

/-- The six cases of the decoder: one per recognized byte, and the default row for every other byte. -/
theorem decodeOpcode_cases (op : Byte) :
    (op = 0x01#8 ∧ decodeOpcode op = (.hlt, 1)) ∨ (op = 0x82#8 ∧ decodeOpcode op = (.ldi, 3)) ∨
    (op = 0x47#8 ∧ decodeOpcode op = (.prn, 2)) ∨ (op = 0xA0#8 ∧ decodeOpcode op = (.add, 3)) ∨
    (op = 0xA2#8 ∧ decodeOpcode op = (.mul, 3)) ∨
    (op ∉ recognizedOpcodes ∧ decodeOpcode op = (.unknown, 1)) := by
  by_cases h1 : op = 0x01#8
  · subst h1; simp
  by_cases h2 : op = 0x82#8
  · subst h2; simp
  by_cases h3 : op = 0x47#8
  · subst h3; simp
  by_cases h4 : op = 0xA0#8
  · subst h4; simp
  by_cases h5 : op = 0xA2#8
  · subst h5; simp
  exact .inr (.inr (.inr (.inr (.inr
    ⟨by simp [recognizedOpcodes, h1, h2, h3, h4, h5], by simp [decodeOpcode, h1, h2, h3, h4, h5]⟩))))

/-- The same six cases for the instruction that the fetch window is. -/
theorem instrOf_cases (op a b : Byte) :
    (op = 0x01#8 ∧ instrOf op a b = .hlt) ∨ (op = 0x82#8 ∧ instrOf op a b = .ldi a b) ∨
    (op = 0x47#8 ∧ instrOf op a b = .prn a) ∨ (op = 0xA0#8 ∧ instrOf op a b = .add a b) ∨
    (op = 0xA2#8 ∧ instrOf op a b = .mul a b) ∨
    (op ∉ recognizedOpcodes ∧ instrOf op a b = .unrecognized op) := by
  rcases decodeOpcode_cases op with ⟨rfl, -⟩ | ⟨rfl, -⟩ | ⟨rfl, -⟩ | ⟨rfl, -⟩ | ⟨rfl, -⟩ | ⟨h, hd⟩
  iterate 5 simp [instrOf]
  exact .inr (.inr (.inr (.inr (.inr ⟨h, by simp [instrOf, hd]⟩))))

end Sys2Proof
end

