-- ==== Sys2Proof/Laws/State.lean ====
section
/-! SUPPORT. One lemma per field per update of the state, so that no proof unfolds a record update. -/

namespace Sys2Proof.Machine

section construct
variable (r : Vector Byte 8) (f : List Byte)

@[simp] theorem State.construct_mem : (State.construct r f).mem = [] := rfl
@[simp] theorem State.construct_x : (State.construct r f).x = r := rfl
@[simp] theorem State.construct_pc : (State.construct r f).pc = 0 := rfl
@[simp] theorem State.construct_run : (State.construct r f).run = .running := rfl
@[simp] theorem State.construct_flags : (State.construct r f).flags = f := rfl
@[simp] theorem State.construct_out : (State.construct r f).out = [] := rfl

end construct

section emit
variable (v : Byte) (s : State)

@[simp] theorem emit_mem : (emit v s).mem = s.mem := rfl
@[simp] theorem emit_x : (emit v s).x = s.x := rfl
@[simp] theorem emit_pc : (emit v s).pc = s.pc := rfl
@[simp] theorem emit_run : (emit v s).run = s.run := rfl
@[simp] theorem emit_flags : (emit v s).flags = s.flags := rfl
@[simp] theorem emit_out : (emit v s).out = s.out ++ [v] := rfl

end emit

section advance
variable (w : Nat) (s : State)

@[simp] theorem advance_mem : (advance w s).mem = s.mem := rfl
@[simp] theorem advance_x : (advance w s).x = s.x := rfl
@[simp] theorem advance_pc : (advance w s).pc = s.pc + w := rfl
@[simp] theorem advance_run : (advance w s).run = s.run := rfl
@[simp] theorem advance_flags : (advance w s).flags = s.flags := rfl
@[simp] theorem advance_out : (advance w s).out = s.out := rfl

end advance

end Sys2Proof.Machine
end

