-- ==== Sys2Proof/Laws/Ops.lean ====
section
/-! SUPPORT. One lemma per shared operation that says once what it answers; proofs cite these and do not
unfold the operations. -/

namespace Sys2Proof.Machine

theorem regIndex_eq (a : Byte) : regIndex a = a.toNat := rfl
theorem literal_eq (b : Byte) : literal b = b := rfl
theorem flagsAfterAlu_eq (op : AluOp) (u v : Byte) (f : List Byte) : flagsAfterAlu op u v f = f := rfl

theorem memRead_in {a : Nat} (s : State) (h : a ≤ 255) : memRead a s = .ok (Memory.peek s.mem a) :=
  if_pos (show a < Config.memSize by simp only [Config.memSize]; omega)

theorem memRead_out {a : Nat} (s : State) (h : 255 < a) :
    memRead a s = .error (.outOfRange .memory a .read s.pc) :=
  if_neg (show ¬ a < Config.memSize by simp only [Config.memSize]; omega)

theorem memWrite_in {a : Nat} (v : Byte) (s : State) (h : a ≤ 255) :
    memWrite a v s = .ok { s with mem := Memory.poke s.mem a v } :=
  if_pos (show a < Config.memSize by simp only [Config.memSize]; omega)

theorem memWrite_out {a : Nat} (v : Byte) (s : State) (h : 255 < a) :
    memWrite a v s = .error (.outOfRange .memory a .write s.pc) :=
  if_neg (show ¬ a < Config.memSize by simp only [Config.memSize]; omega)

theorem readReg_in {i : Nat} (s : State) (h : i < 8) : readReg i s = .ok (s.x[i]'h) := dif_pos h

theorem readReg_out {i : Nat} (s : State) (h : ¬ i < 8) :
    readReg i s = .error (.outOfRange .register i .read s.pc) := dif_neg h

theorem writeReg_in {i : Nat} (v : Byte) (s : State) (h : i < 8) :
    writeReg i v s = .ok { s with x := s.x.set i v h } := dif_pos h

theorem writeReg_out {i : Nat} (v : Byte) (s : State) (h : ¬ i < 8) :
    writeReg i v s = .error (.outOfRange .register i .write s.pc) := dif_neg h

theorem conclude_ok (s t : State) : conclude s (.ok t) = .next t := rfl
theorem conclude_error (s : State) (e : Fault) : conclude s (.error e) = raise e s := rfl
theorem raise_eq (e : Fault) (s : State) : raise e s = .next { s with run := .faulted e } := rfl
theorem stayFinal_eq (s : State) : stayFinal s = .next s := rfl

/-- A fetch that succeeds reads the three bytes at `pc`, `pc + 1` and `pc + 2`. -/
theorem fetch_in {s : State} (h : s.pc ≤ 253) :
    fetch s = .ok ⟨Memory.peek s.mem s.pc, Memory.peek s.mem (s.pc + 1), Memory.peek s.mem (s.pc + 2)⟩ := by
  unfold fetch
  rw [memRead_in s (by omega), memRead_in s (by omega), memRead_in s (by omega)]

/-- A fetch that cannot read the whole window reports the first address above 255. -/
theorem fetch_out {s : State} (h : 254 ≤ s.pc) :
    fetch s = .error (.outOfRange .memory (max s.pc 256) .read s.pc) := by
  unfold fetch
  by_cases h0 : s.pc ≤ 255
  · rw [memRead_in s h0, Nat.max_eq_right (by omega)]
    by_cases h1 : s.pc = 254
    · rw [memRead_in s (by omega : s.pc + 1 ≤ 255), memRead_out s (by omega : 255 < s.pc + 2), h1]
    · rw [memRead_out s (by omega : 255 < s.pc + 1), show s.pc = 255 by omega]
  · rw [memRead_out s (by omega), Nat.max_eq_left (by omega)]

/-- Everything the alu can do when it succeeds. -/
theorem alu_ok {op : AluOp} {a b : Byte} {s t : State} (h : alu op a b s = .ok t) :
    ∃ (f : Byte → Byte → Byte) (ha : a.toNat < 8) (hb : b.toNat < 8), aluFunction op = some f ∧
      t = { s with x := s.x.set a.toNat (f (s.x[a.toNat]'ha) (s.x[b.toNat]'hb)) ha } := by
  unfold alu at h
  split at h
  · cases h
  · next f hf =>
    by_cases ha : a.toNat < 8
    · by_cases hb : b.toNat < 8
      · simp only [regIndex_eq, readReg_in s ha, readReg_in s hb, writeReg_in _ _ ha,
          flagsAfterAlu_eq, Except.ok.injEq] at h
        exact ⟨f, ha, hb, hf, h.symm⟩
      · simp [regIndex_eq, readReg_in s ha, readReg_out s hb] at h
    · simp [regIndex_eq, readReg_out s ha] at h

/-- Every fault of a supported ALU operation is the read of a register that does not exist. -/
theorem alu_error {op : AluOp} {f : Byte → Byte → Byte} (hf : aluFunction op = some f) {a b : Byte}
    {s : State} {e : Fault} (h : alu op a b s = .error e) :
    (7 < a.toNat ∧ e = .outOfRange .register a.toNat .read s.pc) ∨
      (a.toNat ≤ 7 ∧ 7 < b.toNat ∧ e = .outOfRange .register b.toNat .read s.pc) := by
  unfold alu at h
  rw [hf] at h
  by_cases ha : a.toNat < 8
  · by_cases hb : b.toNat < 8
    · simp [regIndex_eq, readReg_in s ha, readReg_in s hb, writeReg_in _ _ ha] at h
    · simp only [regIndex_eq, readReg_in s ha, readReg_out s hb, Except.error.injEq] at h
      exact .inr ⟨by omega, by omega, h.symm⟩
  · simp only [regIndex_eq, readReg_out s ha, Except.error.injEq] at h
    exact .inl ⟨by omega, h.symm⟩

/-- A RUNNING machine that cannot fetch takes Fetch's fault. -/
theorem step_unfetchable {s : State} (hr : s.run = .running) (h : 254 ≤ s.pc) :
    step s = raise (.outOfRange .memory (max s.pc 256) .read s.pc) s := by
  unfold step
  rw [hr, fetch_out h]

/-- A final machine stays as it is. -/
theorem step_final {s : State} (hr : s.run ≠ .running) : step s = .next s := by
  unfold step
  split
  · next h => exact absurd h hr
  · rfl
  · rfl

end Sys2Proof.Machine
end

