-- ==== Sys2Proof/Laws/Exec.lean ====
section
/-! SUPPORT. One inversion lemma per instruction and one for the step: if it answers `next t`, then one of
these cases holds. The proofs about runs cite these. -/

namespace Sys2Proof.Machine

theorem execHlt_inv {s t : State} (h : exec .hlt s = .next t) : t = { s with run := .halted } :=
  (Host.Outcome.next.inj h).symm

theorem execUnrecognized_inv {op : Byte} {s t : State} (h : exec (.unrecognized op) s = .next t) :
    t = { s with pc := s.pc + 1 } := (Host.Outcome.next.inj h).symm

theorem execLdi_inv {a b : Byte} {s t : State} (h : exec (.ldi a b) s = .next t) :
    (∃ ha : a.toNat < 8, t = { s with x := s.x.set a.toNat b ha, pc := s.pc + 3 }) ∨
      (7 < a.toNat ∧ t = { s with run := .faulted (.outOfRange .register a.toNat .write s.pc) }) := by
  by_cases ha : a.toNat < 8
  · simp only [exec, execLdi, regIndex_eq, literal_eq, writeReg_in b s ha, Except.map, conclude_ok,
      Host.Outcome.next.injEq] at h
    exact .inl ⟨ha, h.symm⟩
  · simp only [exec, execLdi, regIndex_eq, literal_eq, writeReg_out b s ha, Except.map, conclude_error,
      raise_eq, Host.Outcome.next.injEq] at h
    exact .inr ⟨by omega, h.symm⟩

theorem execPrn_inv {a : Byte} {s t : State} (h : exec (.prn a) s = .next t) :
    (∃ ha : a.toNat < 8, t = { s with out := s.out ++ [s.x[a.toNat]'ha], pc := s.pc + 2 }) ∨
      (7 < a.toNat ∧ t = { s with run := .faulted (.outOfRange .register a.toNat .read s.pc) }) := by
  by_cases ha : a.toNat < 8
  · simp only [exec, execPrn, regIndex_eq, readReg_in s ha, Except.map, conclude_ok,
      Host.Outcome.next.injEq] at h
    exact .inl ⟨ha, h.symm⟩
  · simp only [exec, execPrn, regIndex_eq, readReg_out s ha, Except.map, conclude_error,
      raise_eq, Host.Outcome.next.injEq] at h
    exact .inr ⟨by omega, h.symm⟩

/-- ADD and MUL differ in the ALU operation only. -/
theorem concludeAlu_inv {op : AluOp} {f : Byte → Byte → Byte} (hf : aluFunction op = some f)
    {a b : Byte} {s t : State} (h : conclude s ((alu op a b s).map (advance 3)) = .next t) :
    (∃ (ha : a.toNat < 8) (hb : b.toNat < 8), t =
        { s with x := s.x.set a.toNat (f (s.x[a.toNat]'ha) (s.x[b.toNat]'hb)) ha, pc := s.pc + 3 }) ∨
      (7 < a.toNat ∧ t = { s with run := .faulted (.outOfRange .register a.toNat .read s.pc) }) ∨
      (a.toNat ≤ 7 ∧ 7 < b.toNat ∧
        t = { s with run := .faulted (.outOfRange .register b.toNat .read s.pc) }) := by
  cases hr : alu op a b s with
  | ok u =>
    obtain ⟨g, ha, hb, hg, rfl⟩ := alu_ok hr
    obtain rfl : f = g := Option.some.inj (hf.symm.trans hg)
    rw [hr] at h
    exact .inl ⟨ha, hb, (Host.Outcome.next.inj h).symm⟩
  | error e =>
    rw [hr] at h
    have ht : t = { s with run := .faulted e } := (Host.Outcome.next.inj h).symm
    rcases alu_error hf hr with ⟨ha, rfl⟩ | ⟨ha, hb, rfl⟩
    · exact .inr (.inl ⟨ha, ht⟩)
    · exact .inr (.inr ⟨ha, hb, ht⟩)

theorem execAdd_inv {a b : Byte} {s t : State} (h : exec (.add a b) s = .next t) :
    (∃ (ha : a.toNat < 8) (hb : b.toNat < 8), t =
        { s with x := s.x.set a.toNat (aluAdd (s.x[a.toNat]'ha) (s.x[b.toNat]'hb)) ha, pc := s.pc + 3 }) ∨
      (7 < a.toNat ∧ t = { s with run := .faulted (.outOfRange .register a.toNat .read s.pc) }) ∨
      (a.toNat ≤ 7 ∧ 7 < b.toNat ∧
        t = { s with run := .faulted (.outOfRange .register b.toNat .read s.pc) }) :=
  concludeAlu_inv rfl h

theorem execMul_inv {a b : Byte} {s t : State} (h : exec (.mul a b) s = .next t) :
    (∃ (ha : a.toNat < 8) (hb : b.toNat < 8), t =
        { s with x := s.x.set a.toNat (aluMul (s.x[a.toNat]'ha) (s.x[b.toNat]'hb)) ha, pc := s.pc + 3 }) ∨
      (7 < a.toNat ∧ t = { s with run := .faulted (.outOfRange .register a.toNat .read s.pc) }) ∨
      (a.toNat ≤ 7 ∧ 7 < b.toNat ∧
        t = { s with run := .faulted (.outOfRange .register b.toNat .read s.pc) }) :=
  concludeAlu_inv rfl h

/-- What a RUNNING machine's step runs when Fetch can read the window. -/
theorem step_fetchable {s : State} (hr : s.run = .running) (h : s.pc ≤ 253) :
    step s = exec (instrOf (Memory.peek s.mem s.pc) (Memory.peek s.mem (s.pc + 1))
      (Memory.peek s.mem (s.pc + 2))) s := by
  unfold step
  rw [hr, fetch_in h]

end Sys2Proof.Machine
end

