-- ==== Sys2Proof/Laws/Memory.lean ====
section
/-! SUPPORT. The laws of memory: a read after a write, and the canonical form that every memory operation
keeps. -/

namespace Sys2Proof.Machine

@[simp] theorem Memory.peek_nil (a : Nat) : Memory.peek [] a = Memory.unlisted := rfl

theorem Memory.peek_cons (k : Nat) (v : Byte) (m : List Host.Cell) (a : Nat) :
    Memory.peek ((k, v) :: m) a = if k = a then v else Memory.peek m a := rfl

/-- An address below every listed one is unlisted. -/
theorem Memory.peek_below {m : List Host.Cell} {a : Nat} (h : ∀ c ∈ m, a < c.1) :
    Memory.peek m a = Memory.unlisted := by
  induction m with
  | nil => rfl
  | cons c m ih =>
    have hc := h c (by simp)
    rw [Memory.peek_cons, if_neg (by omega), ih fun d hd => h d (by simp [hd])]

theorem Memory.wf_tail {c : Host.Cell} {m : List Host.Cell} (h : Memory.wf (c :: m)) : Memory.wf m :=
  ⟨(List.pairwise_cons.1 h.1).2, fun d hd => h.2 d (by simp [hd])⟩

theorem Memory.wf_head {c : Host.Cell} {m : List Host.Cell} (h : Memory.wf (c :: m)) :
    ∀ d ∈ m, c.1 < d.1 := (List.pairwise_cons.1 h.1).1

/-- Reading back what was written. -/
theorem Memory.peek_poke_self {m : List Host.Cell} (h : Memory.wf m) (a : Nat) (v : Byte) :
    Memory.peek (Memory.poke m a v) a = v := by
  induction m with
  | nil => by_cases hv : v = Memory.unlisted <;> simp [Memory.poke, Memory.peek, hv]
  | cons c m ih =>
    obtain ⟨k, u⟩ := c
    have hk := Memory.wf_head h
    rcases Nat.lt_trichotomy a k with hlt | rfl | hgt
    · have hne : k ≠ a := by omega
      have hb : Memory.peek m a = Memory.unlisted :=
        Memory.peek_below fun d hd => Nat.lt_trans hlt (hk d hd)
      by_cases hv : v = Memory.unlisted <;> simp [Memory.poke, Memory.peek, hv, hlt, hne, hb]
    · have hb : Memory.peek m a = Memory.unlisted := Memory.peek_below hk
      by_cases hv : v = Memory.unlisted <;> simp [Memory.poke, Memory.peek, hv, hb]
    · have hne : k ≠ a := by omega
      have hna : ¬ a < k := by omega
      have hne' : a ≠ k := by omega
      simp [Memory.poke, Memory.peek, hna, hne, hne', ih (Memory.wf_tail h)]

/-- A write leaves every other address alone. -/
theorem Memory.peek_poke_other (m : List Host.Cell) {a b : Nat} (v : Byte) (hab : b ≠ a) :
    Memory.peek (Memory.poke m a v) b = Memory.peek m b := by
  induction m with
  | nil => by_cases hv : v = Memory.unlisted <;> simp [Memory.poke, Memory.peek, hv, hab.symm]
  | cons c m ih =>
    obtain ⟨k, u⟩ := c
    simp only [Memory.poke]
    split
    · split <;> simp [Memory.peek, hab.symm]
    · split
      · next h => subst h; split <;> simp [Memory.peek, hab.symm]
      · simp [Memory.peek, ih]

/-- Every address a write leaves listed is the written one or was listed before. -/
theorem Memory.mem_poke {m : List Host.Cell} {a : Nat} {v : Byte} {d : Host.Cell}
    (hd : d ∈ Memory.poke m a v) : (d = (a, v) ∧ v ≠ Memory.unlisted) ∨ d ∈ m := by
  induction m with
  | nil =>
    by_cases hv : v = Memory.unlisted
    · simp [Memory.poke, hv] at hd
    · simp only [Memory.poke, hv, if_false, List.mem_singleton] at hd
      exact .inl ⟨hd, hv⟩
  | cons c m ih =>
    obtain ⟨k, u⟩ := c
    simp only [Memory.poke] at hd
    split at hd
    · split at hd
      · exact .inr hd
      · next hv =>
        rcases List.mem_cons.1 hd with h | h
        · exact .inl ⟨h, hv⟩
        · exact .inr h
    · split at hd
      · split at hd
        · exact .inr (by simp [hd])
        · next hv =>
          rcases List.mem_cons.1 hd with h | h
          · exact .inl ⟨h, hv⟩
          · exact .inr (by simp [h])
      · rcases List.mem_cons.1 hd with h | h
        · exact .inr (by simp [h])
        · exact (ih h).imp_right fun h' => by simp [h']

/-- A write inside the 256 cells keeps the canonical form. -/
theorem Memory.poke_wf {m : List Host.Cell} (h : Memory.wf m) {a : Nat} (ha : a < Config.memSize)
    (v : Byte) : Memory.wf (Memory.poke m a v) := by
  constructor
  · induction m with
    | nil => by_cases hv : v = Memory.unlisted <;> simp [Memory.poke, hv]
    | cons c m ih =>
      obtain ⟨k, u⟩ := c
      have hk := Memory.wf_head h
      simp only [Memory.poke]
      split
      · next hlt =>
        split
        · exact h.1
        · refine List.pairwise_cons.2 ⟨fun d hd => ?_, h.1⟩
          rcases List.mem_cons.1 hd with rfl | hd
          · exact hlt
          · exact Nat.lt_trans hlt (hk d hd)
      · split
        · next heq =>
          subst heq
          split
          · exact (Memory.wf_tail h).1
          · exact List.pairwise_cons.2 ⟨hk, (Memory.wf_tail h).1⟩
        · next hnlt hne =>
          refine List.pairwise_cons.2 ⟨fun d hd => ?_, ih (Memory.wf_tail h)⟩
          rcases Memory.mem_poke hd with ⟨rfl, -⟩ | hd
          · exact (show k < a by omega)
          · exact hk d hd
  · intro d hd
    rcases Memory.mem_poke hd with ⟨rfl, hv⟩ | hd
    · exact ⟨ha, hv⟩
    · exact h.2 d hd

/-- Everything `memWrite` can do when it succeeds. -/
theorem memWrite_ok {a : Nat} {v : Byte} {s t : State} (h : memWrite a v s = .ok t) :
    a < Config.memSize ∧ t = { s with mem := Memory.poke s.mem a v } := by
  unfold memWrite at h
  split at h
  · next ha => exact ⟨ha, (Except.ok.inj h).symm⟩
  · cases h

/-- `memWrite` keeps the canonical form. -/
theorem memWrite_keeps_wf {a : Nat} {v : Byte} {s t : State} (hm : Memory.wf s.mem)
    (h : memWrite a v s = .ok t) : Memory.wf t.mem := by
  obtain ⟨ha, rfl⟩ := memWrite_ok h
  exact Memory.poke_wf hm ha v

/-- The loader keeps the canonical form. -/
theorem loadFrom_keeps_wf {image : List Byte} {base : Nat} {s t : State} (hm : Memory.wf s.mem)
    (h : loadFrom base image s = .ok t) : Memory.wf t.mem := by
  induction image generalizing base s with
  | nil => cases h; exact hm
  | cons v rest ih =>
    simp only [loadFrom] at h
    split at h
    · cases h
    · next u hu => exact ih (memWrite_keeps_wf hm hu) h

/-- The loader changes memory only. -/
theorem loadFrom_frame {image : List Byte} {base : Nat} {s t : State}
    (h : loadFrom base image s = .ok t) : t = { s with mem := t.mem } := by
  induction image generalizing base s with
  | nil => cases h; rfl
  | cons v rest ih =>
    simp only [loadFrom] at h
    split at h
    · cases h
    · next u hu =>
      obtain ⟨-, rfl⟩ := memWrite_ok hu
      have ht := ih h
      exact ht

/-- Placing a word keeps the canonical form. -/
theorem withFetchWord_keeps_wf {s : State} (hm : Memory.wf s.mem) (nbits w : Nat) :
    Memory.wf (s.withFetchWord nbits w).mem := by
  have hp : fetchablePc s.pc + 2 < Config.memSize := by
    unfold fetchablePc; split
    · assumption
    · decide
  exact Memory.poke_wf (Memory.poke_wf (Memory.poke_wf hm (by omega) _) (by omega) _) hp _

/-- Memory right after construction is canonical. -/
theorem construct_mem_wf (r : Vector Byte 8) (f : List Byte) : Memory.wf (State.construct r f).mem := by
  simp [Memory.wf, State.construct]

/-- Memory at reset is canonical. -/
theorem reset_mem_wf : Memory.wf State.reset.mem := construct_mem_wf _ _

end Sys2Proof.Machine
end

