-- ==== Sys2Proof/Laws/PerInstr.lean ====
section
/-! SUPPORT. Statements made per instruction: an instruction's encoding has the length that the decoder
gives its opcode byte (30_encoding.md R42, R46). -/

namespace Sys2Proof.Laws.EncodeLength

/-- The encoding begins with an opcode byte whose width is the encoding's length. -/
def Statement (i : Instr) : Prop :=
  i.wf = true → (encode i).length = (decodeOpcode ((encode i).getD 0 0#8)).2

theorem hlt : Statement .hlt := fun _ => by decide

theorem ldi (a b : Byte) : Statement (.ldi a b) := fun _ => rfl

theorem prn (a : Byte) : Statement (.prn a) := fun _ => rfl

theorem add (a b : Byte) : Statement (.add a b) := fun _ => rfl

theorem mul (a b : Byte) : Statement (.mul a b) := fun _ => rfl

theorem unrecognized (op : Byte) : Statement (.unrecognized op) := by
  intro h
  rcases decodeOpcode_cases op with ⟨rfl, -⟩ | ⟨rfl, -⟩ | ⟨rfl, -⟩ | ⟨rfl, -⟩ | ⟨rfl, -⟩ | ⟨-, hd⟩
  iterate 5 exact absurd h (by decide)
  simp [encode, hd]

end Sys2Proof.Laws.EncodeLength
end

