-- ==== Sys2Proof/Tests/Slice0.lean ====
section
/-! SUPPORT. The model's own tests. Expected results come from the spec: the encoding tables of
30_encoding.md and the vectors of 95_test_vectors.md, each named beside its test. The second half shows,
for every statement with hypotheses, a concrete state and operands that meet them. -/

namespace Sys2Proof.Tests

open Sys2Proof.Machine

/-- A RUNNING machine with the given memory, registers R0, R1, R2 and R7, and pc. -/
def st (mem : List Host.Cell) (pc : Nat) (r0 : Byte := 200#8) (r1 : Byte := 100#8) (r2 : Byte := 128#8)
    (r7 : Byte := 255#8) : State where
  mem := mem
  x := #v[r0, r1, r2, 9#8, 0#8, 0#8, 0#8, r7]
  pc := pc
  run := .running
  flags := [0#8]
  out := [7#8]

/-- The state a step answers, if it answers one. -/
def after (s : State) : Option State :=
  match step s with
  | .next t => some t
  | .fault _ => none
  | .refused _ => none

/-- `p` holds of the state after the step from `s`. -/
def stepGives (s : State) (p : State → Bool) : Bool := (after s).any p

/-! ### WellFormed refuses the ill-formed -/

theorem test_wf_refuses_hlt_byte : (Instr.unrecognized 0x01#8).wf = false := by decide
theorem test_wf_refuses_ldi_byte : (Instr.unrecognized 0x82#8).wf = false := by decide
theorem test_wf_refuses_prn_byte : (Instr.unrecognized 0x47#8).wf = false := by decide
theorem test_wf_refuses_add_byte : (Instr.unrecognized 0xA0#8).wf = false := by decide
theorem test_wf_refuses_mul_byte : (Instr.unrecognized 0xA2#8).wf = false := by decide
theorem test_wf_admits_every_register_byte : (Instr.ldi 255#8 255#8).wf = true := by decide

/-! ### Decoding, bit by bit from 30_encoding.md R36 and R40 -/

theorem test_decode_hlt : decode [0b00000001#8] = .ok (.hlt, []) := by decide
theorem test_decode_ldi :
    decode [0b10000010#8, 0b00000111#8, 0b11111111#8] = .ok (.ldi 7#8 255#8, []) := by decide
theorem test_decode_prn :
    decode [0b01000111#8, 0b00000101#8, 0b00000001#8] = .ok (.prn 5#8, [1#8]) := by decide
theorem test_decode_add :
    decode [0b10100000#8, 0b00000010#8, 0b00000110#8] = .ok (.add 2#8 6#8, []) := by decide
theorem test_decode_mul :
    decode [0b10100010#8, 0b00000011#8, 0b00001010#8] = .ok (.mul 3#8 10#8, []) := by decide
/-- 95_test_vectors.md section 2.2: 84 is UNKNOWN of width 1, not 3. -/
theorem test_decode_unrecognized_84 :
    decode [0x84#8, 0x82#8, 0x03#8] = .ok (.unrecognized 0x84#8, [0x82#8, 0x03#8]) := by decide
theorem test_decode_neighbours_unknown :
    [0x00#8, 0x02#8, 0x46#8, 0x48#8, 0x81#8, 0xA1#8, 0xFF#8].all
      (fun op => decodeOpcode op == (.unknown, 1)) = true := by decide
theorem test_decode_refuses_empty : decode [] = .error .noOpcode := by decide
theorem test_decode_refuses_truncated :
    decode [0x82#8, 0x00#8] = .error (.truncated 0x82#8 3) := by decide
/-- The table numbers byte +1 as bits 15..8 and byte +2 as bits 23..16. -/
theorem test_table_word_ldi : decodeTableWord 24 0x080782 = some (.ldi 7#8 8#8) := by decide
theorem test_table_word_short : decodeTableWord 8 0x080782 = some (.ldi 0#8 0#8) := by decide

/-! ### One step each, from 95_test_vectors.md section 2 -/

theorem test_hlt_keeps_pc :
    stepGives (st [(253, 1#8)] 253) (fun t => t.run == .halted && t.pc == 253) = true := by decide
theorem test_hlt_at_254_faults :
    stepGives (st [(254, 1#8)] 254)
      (fun t => t.run == .faulted (.outOfRange .memory 256 .read 254) && t.pc == 254) = true := by decide
theorem test_ldi_at_253 :
    stepGives (st [(253, 0x82#8), (255, 5#8)] 253) (fun t => t.x[0] == 5#8 && t.pc == 256) = true := by
  decide
theorem test_ldi_index_8_faults :
    stepGives (st [(0, 0x82#8), (1, 8#8), (2, 5#8)] 0)
      (fun t => t.run == .faulted (.outOfRange .register 8 .write 0) && t.pc == 0 && t.x[0] == 200#8)
      = true := by decide
theorem test_prn_appends_r7 :
    stepGives (st [(0, 0x47#8), (1, 7#8)] 0) (fun t => t.out == [7#8, 255#8] && t.pc == 2) = true := by
  decide
theorem test_prn_index_8_faults :
    stepGives (st [(0, 0x47#8), (1, 8#8)] 0)
      (fun t => t.run == .faulted (.outOfRange .register 8 .read 0) && t.out == [7#8]) = true := by decide
/-- Source example E2: 200 + 100 leaves 44. -/
theorem test_add_wraps :
    stepGives (st [(0, 0xA0#8), (2, 1#8)] 0) (fun t => t.x[0] == 44#8 && t.x[1] == 100#8 && t.pc == 3)
      = true := by decide
/-- Both indices out of range: index a is reported. -/
theorem test_add_reports_a_first :
    stepGives (st [(0, 0xA0#8), (1, 9#8), (2, 10#8)] 0)
      (fun t => t.run == .faulted (.outOfRange .register 9 .read 0)) = true := by decide
theorem test_mul_wraps :
    stepGives (st [(0, 0xA2#8), (2, 1#8)] 0 255#8 255#8) (fun t => t.x[0] == 1#8 && t.pc == 3) = true := by
  decide
/-- The same register twice: 100 * 100 leaves 16. -/
theorem test_mul_square :
    stepGives (st [(0, 0xA2#8), (1, 1#8), (2, 1#8)] 0) (fun t => t.x[1] == 16#8) = true := by decide
theorem test_unrecognized_at_253 :
    stepGives (st [(253, 0xFF#8)] 253) (fun t => t.pc == 254 && t.run == .running) = true := by decide
theorem test_unrecognized_84_advances_1 :
    stepGives (st [(5, 0x84#8)] 5) (fun t => t == { st [(5, 0x84#8)] 5 with pc := 6 }) = true := by decide
/-- Section 2.9: the operation is checked before the register reads. -/
theorem test_alu_sub_unsupported :
    alu .sub 9#8 9#8 (st [] 0) = .error (.unsupportedOperation .sub 0) := rfl
theorem test_fetch_at_256 :
    fetch (st [] 256) = .error (.outOfRange .memory 256 .read 256) := by rfl

/-! ### Memory, loading and the host's view, from 95_test_vectors.md sections 2.6, 2.10 and 2.11 -/

theorem test_poke_zero_unlists : Memory.poke [(3, 5#8), (7, 1#8)] 3 0#8 = [(7, 1#8)] := by decide
theorem test_poke_keeps_order :
    Memory.poke [(3, 5#8), (7, 1#8)] 5 2#8 = [(3, 5#8), (5, 2#8), (7, 1#8)] := by decide
theorem test_read_256_faults :
    memRead 256 (st [] 0) = .error (.outOfRange .memory 256 .read 0) := by rfl
theorem test_render : renderOutput [8#8, 10#8, 255#8, 0#8] = "8\n10\n255\n0\n".toList := by decide
theorem test_trace_line :
    traceLine true .lower (st [(0, 0x82#8), (2, 8#8)] 0 0#8 0#8 0#8 0#8) =
      some "TRACE: 00 | 82 00 08 | 00 00 00 09 00 00 00 00".toList := by decide
/-- A reset machine with a table word placed runs it at once, whatever the open register contents are. -/
theorem test_placed_word_runs :
    stepGives (State.reset.withFetchWord 24 0x080082) (fun t => t.x[0] == 8#8 && t.pc == 3) = true := by
  decide
theorem test_placed_hlt_runs :
    stepGives (State.reset.withFetchWord 8 0x01) (fun t => t.run == .halted) = true := by decide

/-! ### Witnesses: hypotheses that are met together -/

/-- `s` steps to `t`, and `s` is RUNNING. -/
def RunningStep (s t : State) : Prop := s.run = .running ∧ step s = .next t

theorem witness_DecodeOfEncodeIsTheInstruction :
    (Instr.ldi 255#8 0#8).wf = true ∧ (Instr.unrecognized 0x00#8).wf = true := by decide

theorem witness_DecodedBytesAreTheEncoding :
    decode [0x47#8, 0xFF#8, 0x01#8] = .ok (.prn 0xFF#8, [0x01#8]) := by decide

theorem witness_OpcodeTableIsTotal :
    0xA1#8 ≠ 0x01#8 ∧ 0xA1#8 ≠ 0x82#8 ∧ 0xA1#8 ≠ 0x47#8 ∧ 0xA1#8 ≠ 0xA0#8 ∧ 0xA1#8 ≠ 0xA2#8 := by decide

theorem witness_PlacedWordIsWhatTheNextStepRuns : Memory.wf (st [(0, 5#8), (255, 1#8)] 254).mem := by
  decide

theorem witness_FetchReadsThreeBytesAndReportsTheFirstBadAddress :
    ((st [] 254).run = .running ∧ (st [] 254).pc = 254) ∧
    ((st [] 255).run = .running ∧ (st [] 255).pc = 255) ∧
    ((st [] 256).run = .running ∧ (st [] 256).pc = 256) := by decide

theorem witness_StepRunsTheDecodedInstruction :
    let s := st [(253, 0x82#8), (254, 7#8), (255, 9#8)] 253
    s.run = .running ∧ s.pc ≤ 253 ∧
    decode [s.byteAt s.pc, s.byteAt (s.pc + 1), s.byteAt (s.pc + 2)] = .ok (.ldi 7#8 9#8, []) ∧
    (Instr.ldi 7#8 9#8).wf = true ∧
    ∀ (k : Nat) (h : k < (encode (.ldi 7#8 9#8)).length),
      s.byteAt (s.pc + k) = (encode (.ldi 7#8 9#8))[k] := by decide

theorem witness_FinalStatesStayUnchanged :
    { st [] 0 with run := .halted }.run ≠ .running ∧
    { st [] 254 with run := .faulted (.outOfRange .memory 256 .read 254) }.run ≠ .running := by decide

/-- An LDI that names register 8. -/
def badLdi : State := st [(0, 0x82#8), (1, 8#8), (2, 5#8)] 0

theorem witness_FaultKeepsTheStateBeforeTheStep :
    RunningStep badLdi (badLdi.withFault (.outOfRange .register 8 .write 0)) ∧
    (badLdi.withFault (.outOfRange .register 8 .write 0)).run =
      .faulted (.outOfRange .register 8 .write 0) := ⟨⟨rfl, rfl⟩, rfl⟩

/-- ADD R0, R7 at 253: 200 + 255. -/
def addAtTop : State := st [(253, 0xA0#8), (255, 7#8)] 253
def addAtTopNext : State := { addAtTop with x := addAtTop.x.set 0 199#8, pc := 256 }

theorem witness_StepWritesAtMostOnePlace :
    RunningStep addAtTop addAtTopNext ∧ ∀ e, addAtTopNext.run ≠ .faulted e :=
  ⟨⟨rfl, rfl⟩, nofun⟩

theorem witness_PcAdvancesByTheWidth :
    (RunningStep addAtTop addAtTopNext ∧ addAtTopNext.run = .running) ∧
    (RunningStep badLdi (badLdi.withFault (.outOfRange .register 8 .write 0)) ∧
      (badLdi.withFault (.outOfRange .register 8 .write 0)).run ≠ .running) :=
  ⟨⟨⟨rfl, rfl⟩, rfl⟩, ⟨rfl, rfl⟩, nofun⟩

/-- HLT at 253. -/
def hltAtTop : State := st [(253, 1#8)] 253
def hltAtTopNext : State := { hltAtTop with run := .halted }

theorem witness_RunStateTransitions :
    (RunningStep hltAtTop hltAtTopNext ∧ hltAtTopNext.run = .halted) ∧
    (RunningStep badLdi (badLdi.withFault (.outOfRange .register 8 .write 0)) ∧
      (badLdi.withFault (.outOfRange .register 8 .write 0)).run =
        .faulted (.outOfRange .register 8 .write 0)) ∧
    (hltAtTopNext.run ≠ .running ∧ step hltAtTopNext = .next hltAtTopNext) :=
  ⟨⟨⟨rfl, rfl⟩, rfl⟩, ⟨⟨rfl, rfl⟩, rfl⟩, nofun, rfl⟩

/-- ADD R7, R8: only the second index is out of range. -/
def badAdd : State := st [(0, 0xA0#8), (1, 7#8), (2, 8#8)] 0

theorem witness_FaultsAreRaisedExactlyWhereTheTableSays :
    RunningStep (st [] 254) (st [] 254).fetchFault ∧
    RunningStep badLdi (badLdi.withFault (.outOfRange .register 8 .write 0)) ∧
    RunningStep badAdd (badAdd.withFault (.outOfRange .register 8 .read 0)) ∧
    RunningStep addAtTop addAtTopNext :=
  ⟨⟨rfl, rfl⟩, ⟨rfl, rfl⟩, ⟨rfl, rfl⟩, rfl, rfl⟩

/-- PRN R7 at 253. -/
def prnAtTop : State := st [(253, 0x47#8), (254, 7#8)] 253
def prnAtTopNext : State := { prnAtTop with out := [7#8, 255#8], pc := 255 }

theorem witness_UnusedOperandBytesAreDiscarded :
    (RunningStep prnAtTop prnAtTopNext ∧
      prnAtTop.byteAt 253 ≠ 0x82#8 ∧ prnAtTop.byteAt 253 ≠ 0xA0#8 ∧ prnAtTop.byteAt 253 ≠ 0xA2#8 ∧
      Memory.peek [(253, 0x47#8), (254, 7#8), (255, 9#8)] 253 = prnAtTop.byteAt 253 ∧
      (prnAtTop.byteAt 253 = 0x47#8 →
        Memory.peek [(253, 0x47#8), (254, 7#8), (255, 9#8)] 254 = prnAtTop.byteAt 254)) ∧
    (RunningStep hltAtTop hltAtTopNext ∧
      hltAtTop.byteAt 253 ≠ 0x82#8 ∧ hltAtTop.byteAt 253 ≠ 0xA0#8 ∧ hltAtTop.byteAt 253 ≠ 0xA2#8 ∧
      Memory.peek [(253, 1#8), (254, 3#8)] 253 = hltAtTop.byteAt 253 ∧
      (hltAtTop.byteAt 253 = 0x47#8 → Memory.peek [(253, 1#8), (254, 3#8)] 254 = hltAtTop.byteAt 254)) :=
  ⟨⟨⟨rfl, rfl⟩, by decide⟩, ⟨rfl, rfl⟩, by decide⟩

theorem witness_TopOfMemoryHazard :
    (RunningStep addAtTop addAtTopNext ∧ addAtTop.pc = 253 ∧ addAtTopNext.run = .running ∧
      (decodeOpcode (addAtTop.byteAt 253)).2 = 3 ∧ ∀ e, addAtTopNext.run ≠ .faulted e) ∧
    (RunningStep prnAtTop prnAtTopNext ∧ prnAtTop.pc = 253 ∧ prnAtTopNext.run = .running ∧
      (decodeOpcode (prnAtTop.byteAt 253)).2 = 2) :=
  ⟨⟨⟨rfl, rfl⟩, rfl, rfl, rfl, nofun⟩, ⟨rfl, rfl⟩, rfl, rfl, rfl⟩

theorem witness_HltHalts :
    ((st [(253, 1#8)] 253).run = .running ∧ (st [(253, 1#8)] 253).byteAt 253 = 0x01#8) ∧
    ((st [(254, 1#8)] 254).run = .running ∧ (st [(254, 1#8)] 254).byteAt 254 = 0x01#8) ∧
    (RunningStep hltAtTop hltAtTopNext ∧ hltAtTopNext.run = .halted) ∧
    (hltAtTopNext.run = .halted ∧ step hltAtTopNext = .next hltAtTopNext) :=
  ⟨by decide, by decide, ⟨⟨rfl, rfl⟩, rfl⟩, rfl, rfl⟩

/-- The register operands at the ends of their ranges: 7 names a register, 8 and 255 do not. -/
theorem witness_register_operands :
    (7#8).toNat < 8 ∧ (7#8).toNat ≤ 7 ∧ 7 < (8#8).toNat ∧ 7 < (255#8).toNat := by decide

theorem witness_LdiLoadsTheLiteral :
    ((7#8).toNat < 8 ∧ 7 < (8#8).toNat) ∧
    ((st [(253, 0x82#8)] 253).run = .running ∧ (st [(253, 0x82#8)] 253).byteAt 253 = 0x82#8) ∧
    ((st [(254, 0x82#8)] 254).run = .running ∧ (st [(254, 0x82#8)] 254).byteAt 254 = 0x82#8) := by decide

theorem witness_PrnEmitsTheRegister :
    ((7#8).toNat < 8 ∧ 7 < (8#8).toNat) ∧
    ((st [(253, 0x47#8)] 253).run = .running ∧ (st [(253, 0x47#8)] 253).byteAt 253 = 0x47#8) ∧
    ((st [(254, 0x47#8)] 254).run = .running ∧ (st [(254, 0x47#8)] 254).byteAt 254 = 0x47#8) := by decide

theorem witness_AddAddsModulo256 :
    ((7#8).toNat < 8 ∧ (0#8).toNat < 8 ∧ 7 < (8#8).toNat ∧ (7#8).toNat ≤ 7) ∧
    ((st [(253, 0xA0#8)] 253).run = .running ∧ (st [(253, 0xA0#8)] 253).byteAt 253 = 0xA0#8) ∧
    ((st [(254, 0xA0#8)] 254).run = .running ∧ (st [(254, 0xA0#8)] 254).byteAt 254 = 0xA0#8) := by decide

theorem witness_MulMultipliesModulo256 :
    ((7#8).toNat < 8 ∧ (0#8).toNat < 8 ∧ 7 < (8#8).toNat ∧ (7#8).toNat ≤ 7) ∧
    ((st [(253, 0xA2#8)] 253).run = .running ∧ (st [(253, 0xA2#8)] 253).byteAt 253 = 0xA2#8) ∧
    ((st [(254, 0xA2#8)] 254).run = .running ∧ (st [(254, 0xA2#8)] 254).byteAt 254 = 0xA2#8) := by decide

theorem witness_UnrecognizedOpcodeAdvancesByOne :
    (0x84#8 ∉ [0x01#8, 0x82#8, 0x47#8, 0xA0#8, 0xA2#8]) ∧
    ((st [(253, 0xFF#8)] 253).run = .running ∧
      (st [(253, 0xFF#8)] 253).byteAt 253 ∉ [0x01#8, 0x82#8, 0x47#8, 0xA0#8, 0xA2#8]) ∧
    ((st [] 254).run = .running ∧
      (st [] 254).byteAt 254 ∉ [0x01#8, 0x82#8, 0x47#8, 0xA0#8, 0xA2#8]) := by decide

theorem witness_FrameOfRegisterWriters :
    (∃ t, exec (.ldi 7#8 0#8) (st [] 0) = .next t) ∧ (∃ t, exec (.add 0#8 7#8) (st [] 0) = .next t) ∧
    (∃ t, exec (.mul 7#8 7#8) (st [] 0) = .next t) ∧ (0 < 8 ∧ 0 ≠ (7#8).toNat) :=
  ⟨⟨_, rfl⟩, ⟨_, rfl⟩, ⟨_, rfl⟩, by decide⟩

theorem witness_FrameOfPrn :
    (∃ t, exec (.prn 7#8) (st [] 0) = .next t ∧ t.run = .running) ∧
    (∃ t, exec (.prn 8#8) (st [] 0) = .next t ∧ t.run ≠ .running) :=
  ⟨⟨_, rfl, rfl⟩, _, rfl, nofun⟩

theorem witness_FrameOfHltAndUnrecognized :
    (∃ t, exec .hlt (st [] 0) = .next t) ∧ (∃ t, exec (.unrecognized 0x84#8) (st [] 0) = .next t) :=
  ⟨⟨_, rfl⟩, _, rfl⟩

theorem witness_NoInstructionWritesMemory :
    (∃ t, exec .hlt (st [] 0) = .next t) ∧ (∃ t, exec (.mul 7#8 7#8) (st [] 0) = .next t) ∧
    (∃ t, exec (.prn 7#8) (st [] 0) = .next t) ∧ (∃ t, runSteps 2 addAtTop = .next t) :=
  ⟨⟨_, rfl⟩, ⟨_, rfl⟩, ⟨_, rfl⟩, _, rfl⟩

theorem witness_FlagsAreInert : runSteps 1 addAtTop = .next addAtTopNext := rfl

theorem witness_OnlyPrnAppendsToTheOutput :
    (RunningStep prnAtTop prnAtTopNext ∧ prnAtTopNext.out ≠ prnAtTop.out) ∧
    runSteps 1 prnAtTop = .next prnAtTopNext := ⟨⟨⟨rfl, rfl⟩, by decide⟩, rfl⟩

theorem witness_AluContract :
    aluFunction .sub = none ∧ aluFunction .add = some aluAdd ∧ aluFunction .mul = some aluMul ∧
    (7 < (8#8).toNat ∧ (7#8).toNat ≤ 7 ∧ (7#8).toNat < 8) := ⟨rfl, rfl, rfl, by decide⟩

theorem witness_UnsupportedOperationIsUnreachable :
    (AluOp.sub ≠ .add ∧ AluOp.sub ≠ .mul) ∧ RunningStep addAtTop addAtTopNext :=
  ⟨by decide, rfl, rfl⟩

theorem witness_AluArithmeticLaws :
    (∃ t, alu .add 0#8 7#8 (st [] 0) = .ok t) ∧ (AluOp.other 0 ≠ .add ∧ AluOp.other 0 ≠ .mul) :=
  ⟨⟨_, rfl⟩, by decide⟩

theorem witness_RegisterReadAndWrite : (7 ≤ 7 ∧ 0 ≤ 7) ∧ (7 < 8 ∧ 7 < 255) := by decide

theorem witness_MemoryReadRule : (0 ≤ 255 ∧ 255 ≤ 255) ∧ 255 < 256 := by decide

theorem witness_MemoryRoundTrip :
    (Memory.wf (st [(255, 1#8)] 0).mem ∧ 255 ≤ 255 ∧ 0 ≠ 255) ∧ 255 < 256 := by decide

theorem witness_CanonicalMemoriesAreExtensional :
    Memory.wf [(3, 5#8), (255, 1#8)] ∧
    ∀ addr, Memory.peek [(3, 5#8), (255, 1#8)] addr = Memory.peek [(3, 5#8), (255, 1#8)] addr :=
  ⟨by decide, fun _ => rfl⟩

theorem witness_ResetValues : 0 < 8 ∧ 7 < 8 := by decide

theorem witness_LoaderWritesTheImage :
    (List.replicate 256 1#8).length ≤ 256 ∧ ([] : List Byte).length ≤ 256 ∧
    ([] : List Byte).length ≤ 0 ∧ 255 ≤ 255 ∧ 255 < 256 := by
  refine ⟨by rw [List.length_replicate], ?_⟩
  decide

theorem witness_LongImagesNeverStart : 256 < (List.replicate 257 1#8).length := by
  rw [List.length_replicate]
  decide

theorem witness_TraceLineOfAStep :
    ((st [] 253).run = .running ∧ (st [] 253).pc ≤ 253) ∧
    { st [] 0 with run := .halted }.run ≠ .running ∧ 254 ≤ (st [] 254).pc := by decide

/-- A RUNNING machine at an HLT meets the invariant. -/
theorem hltAtTop_inv : Inv hltAtTop where
  memory := by decide
  pcBound := by decide
  flagsPresent := by decide
  haltedAtHlt := nofun
  faultedAtCause := nofun

theorem witness_ResetAndLoadingMeetTheInvariant :
    ([0#8] : List Byte) ≠ [] ∧
    (hltAtTop.run = .running ∧ Inv hltAtTop ∧ ∃ t, load [1#8, 2#8] hltAtTop = .ok t) :=
  ⟨by decide, rfl, hltAtTop_inv, _, rfl⟩

theorem witness_EveryStepKeepsTheInvariant : Inv hltAtTop ∧ step hltAtTop = .next hltAtTopNext :=
  ⟨hltAtTop_inv, rfl⟩

theorem witness_EveryRunEndsWithin255Steps :
    hltAtTop.run = .running ∧
    ∃ s, load [0x82#8, 0#8, 8#8] (State.construct hltAtTop.x [0#8]) = .ok s := ⟨rfl, _, rfl⟩

theorem witness_RegistersNeverSteerControl : runSteps 1 prnAtTop = .next prnAtTopNext := rfl

/-- The run from the HLT at 253 never faults. -/
theorem hltAtTop_safe : SafeRun hltAtTop := by
  have stays : ∀ k, runSteps k hltAtTopNext = .next hltAtTopNext := by
    intro k
    induction k with
    | zero => rfl
    | succ k ih => exact ih
  intro k t h e
  cases k with
  | zero => cases h; exact nofun
  | succ k =>
    have ht : runSteps k hltAtTopNext = .next t := h
    rw [stays k] at ht
    cases ht
    exact nofun

theorem witness_SafeRunsReachAnHlt : hltAtTop.run = .running ∧ SafeRun hltAtTop :=
  ⟨rfl, hltAtTop_safe⟩

end Sys2Proof.Tests
end

/-! ## State, output and Flags (10_state.md)

The equations of the instructions, the inversion lemma of a RUNNING step, and the one fact from which the
statements about the Flags and the output follow: a run neither reads nor writes the Flags, and only appends
to the output, the same bytes whatever the output held. -/

namespace Sys2Proof.Machine

/-! ### The equations of the instructions -/

theorem exec_hlt (s : State) : exec .hlt s = .next { s with run := .halted } := rfl

theorem exec_unrecognized (op : Byte) (s : State) :
    exec (.unrecognized op) s = .next { s with pc := s.pc + 1 } := rfl

theorem exec_ldi_in {a : Byte} (b : Byte) (s : State) (ha : a.toNat < 8) :
    exec (.ldi a b) s = .next { s with x := s.x.set a.toNat b ha, pc := s.pc + 3 } := by
  rw [exec, execLdi, regIndex_eq, literal_eq, writeReg_in b s ha]
  rfl

theorem exec_ldi_out {a : Byte} (b : Byte) (s : State) (ha : 7 < a.toNat) :
    exec (.ldi a b) s = raise (.outOfRange .register a.toNat .write s.pc) s := by
  rw [exec, execLdi, regIndex_eq, literal_eq, writeReg_out b s (by omega)]
  rfl

theorem exec_prn_in {a : Byte} (s : State) (ha : a.toNat < 8) :
    exec (.prn a) s = .next { s with out := s.out ++ [s.x[a.toNat]'ha], pc := s.pc + 2 } := by
  rw [exec, execPrn, regIndex_eq, readReg_in s ha]
  rfl

theorem exec_prn_out {a : Byte} (s : State) (ha : 7 < a.toNat) :
    exec (.prn a) s = raise (.outOfRange .register a.toNat .read s.pc) s := by
  rw [exec, execPrn, regIndex_eq, readReg_out s (by omega)]
  rfl

section alu
variable {op : AluOp} {f : Byte → Byte → Byte} (hf : aluFunction op = some f) {a b : Byte} (s : State)
include hf

theorem alu_in (ha : a.toNat < 8) (hb : b.toNat < 8) :
    alu op a b s = .ok { s with x := s.x.set a.toNat (f (s.x[a.toNat]'ha) (s.x[b.toNat]'hb)) ha } := by
  rw [alu, hf]
  simp only [regIndex_eq, readReg_in s ha, readReg_in s hb, writeReg_in _ _ ha, flagsAfterAlu_eq]

theorem alu_out_a (ha : 7 < a.toNat) :
    alu op a b s = .error (.outOfRange .register a.toNat .read s.pc) := by
  rw [alu, hf]
  simp only [regIndex_eq, readReg_out s (show ¬ a.toNat < 8 by omega)]

theorem alu_out_b (ha : a.toNat ≤ 7) (hb : 7 < b.toNat) :
    alu op a b s = .error (.outOfRange .register b.toNat .read s.pc) := by
  rw [alu, hf]
  simp only [regIndex_eq, readReg_in s (show a.toNat < 8 by omega),
    readReg_out s (show ¬ b.toNat < 8 by omega)]

end alu

/-! ### What a RUNNING step can do -/

/-- A RUNNING step takes Fetch's fault, or runs the instruction of the fetch window (R52). -/
theorem step_inv {s t : State} (hr : s.run = .running) (h : step s = .next t) :
    (254 ≤ s.pc ∧ t = s.fetchFault) ∨
      (s.pc ≤ 253 ∧
        exec (instrOf (s.byteAt s.pc) (s.byteAt (s.pc + 1)) (s.byteAt (s.pc + 2))) s = .next t) := by
  by_cases hpc : s.pc ≤ 253
  · exact .inr ⟨hpc, (step_fetchable hr hpc).symm.trans h⟩
  · rw [step_unfetchable hr (by omega)] at h
    exact .inl ⟨by omega, (Host.Outcome.next.inj h).symm⟩

theorem instrOf_eq_hlt_iff (op a b : Byte) : instrOf op a b = .hlt ↔ op = 0x01#8 := by
  rcases instrOf_cases op a b with ⟨rfl, h⟩ | ⟨rfl, h⟩ | ⟨rfl, h⟩ | ⟨rfl, h⟩ | ⟨rfl, h⟩ | ⟨hop, h⟩
  iterate 5 simp [h]
  have hne : op ≠ 0x01#8 := fun heq => hop (by simp [heq, recognizedOpcodes])
  simp [h, hne]

theorem instrOf_eq_prn {op a b c : Byte} (h : instrOf op a b = .prn c) : op = 0x47#8 ∧ c = a := by
  rcases instrOf_cases op a b with ⟨-, hi⟩ | ⟨-, hi⟩ | ⟨hop, hi⟩ | ⟨-, hi⟩ | ⟨-, hi⟩ | ⟨-, hi⟩ <;>
    rw [hi] at h <;> cases h
  exact ⟨hop, rfl⟩

/-- HLT halts; any other instruction leaves the run state or raises, and then nothing else has changed
(R16, R56). -/
theorem exec_run_cases {i : Instr} {s t : State} (h : exec i s = .next t) :
    (i = .hlt ∧ t = { s with run := .halted }) ∨ (i ≠ .hlt ∧ t.run = s.run) ∨
      (i ≠ .hlt ∧ ∃ e, t = s.withFault e) := by
  cases i with
  | hlt => exact .inl ⟨rfl, execHlt_inv h⟩
  | ldi a b =>
    rcases execLdi_inv h with ⟨ha, rfl⟩ | ⟨-, rfl⟩
    · exact .inr (.inl ⟨nofun, rfl⟩)
    · exact .inr (.inr ⟨nofun, _, rfl⟩)
  | prn a =>
    rcases execPrn_inv h with ⟨ha, rfl⟩ | ⟨-, rfl⟩
    · exact .inr (.inl ⟨nofun, rfl⟩)
    · exact .inr (.inr ⟨nofun, _, rfl⟩)
  | add a b =>
    rcases execAdd_inv h with ⟨ha, hb, rfl⟩ | ⟨-, rfl⟩ | ⟨-, -, rfl⟩
    · exact .inr (.inl ⟨nofun, rfl⟩)
    · exact .inr (.inr ⟨nofun, _, rfl⟩)
    · exact .inr (.inr ⟨nofun, _, rfl⟩)
  | mul a b =>
    rcases execMul_inv h with ⟨ha, hb, rfl⟩ | ⟨-, rfl⟩ | ⟨-, -, rfl⟩
    · exact .inr (.inl ⟨nofun, rfl⟩)
    · exact .inr (.inr ⟨nofun, _, rfl⟩)
    · exact .inr (.inr ⟨nofun, _, rfl⟩)
  | unrecognized op =>
    obtain rfl := execUnrecognized_inv h
    exact .inr (.inl ⟨nofun, rfl⟩)

/-- Only HLT halts a RUNNING machine. -/
theorem exec_halts_iff {i : Instr} {s t : State} (hr : s.run = .running) (h : exec i s = .next t) :
    t.run = .halted ↔ i = .hlt := by
  rcases exec_run_cases h with ⟨hi, rfl⟩ | ⟨hi, ht⟩ | ⟨hi, e, rfl⟩
  · simp [hi]
  · simp [hi, ht, hr]
  · simp [hi, State.withFault]

/-- An instruction that leaves a RUNNING machine FAULTED has raised that fault. -/
theorem exec_faulted {i : Instr} {s t : State} {e : Fault} (hr : s.run = .running)
    (h : exec i s = .next t) (ht : t.run = .faulted e) : t = s.withFault e := by
  rcases exec_run_cases h with ⟨-, rfl⟩ | ⟨-, hrun⟩ | ⟨-, e', rfl⟩
  · cases ht
  · rw [hrun, hr] at ht
    cases ht
  · cases ht
    rfl

/-- A step halts a RUNNING machine exactly when Fetch gives it the opcode of HLT (R16). -/
theorem step_halts_iff {s t : State} (hr : s.run = .running) (h : step s = .next t) :
    t.run = .halted ↔ fetch s = .ok ⟨0x01#8, s.byteAt (s.pc + 1), s.byteAt (s.pc + 2)⟩ := by
  rcases step_inv hr h with ⟨hpc, rfl⟩ | ⟨hpc, hx⟩
  · simp [fetch_out hpc, State.fetchFault, State.withFault]
  · rw [exec_halts_iff hr hx, instrOf_eq_hlt_iff, fetch_in hpc]
    simp [State.byteAt]

/-- A step that leaves a RUNNING machine FAULTED has raised that fault (R16, R76). -/
theorem step_faulted {s t : State} {e : Fault} (hr : s.run = .running) (h : step s = .next t)
    (ht : t.run = .faulted e) : t = s.withFault e := by
  rcases step_inv hr h with ⟨-, rfl⟩ | ⟨-, hx⟩
  · cases ht
    rfl
  · exact exec_faulted hr hx ht

/-! ### Runs -/

theorem runSteps_zero (s : State) : runSteps 0 s = .next s := rfl

/-- The run of any core goes on from the state that its first step answers. -/
theorem core_run_succ (M : Host.Core) {s t : M.State} (h : M.step s = .next t) (k : Nat) :
    M.run (k + 1) s = M.run k t := by
  simp only [Host.Core.run, h]

/-- A run that ends in a state was not stopped by its first step. -/
theorem core_run_succ_inv (M : Host.Core) {k : Nat} {s u : M.State} (h : M.run (k + 1) s = .next u) :
    ∃ t, M.step s = .next t ∧ M.run k t = .next u := by
  simp only [Host.Core.run] at h
  split at h
  · next t ht => exact ⟨t, ht, h⟩
  · cases h
  · cases h

theorem runSteps_succ {s t : State} (h : step s = .next t) (k : Nat) :
    runSteps (k + 1) s = runSteps k t := core_run_succ core h k

/-- A run of `k + 1` steps is a step and a run of `k` steps. -/
theorem runSteps_succ_inv {k : Nat} {s u : State} (h : runSteps (k + 1) s = .next u) :
    ∃ t, step s = .next t ∧ runSteps k t = .next u := core_run_succ_inv core h

/-! ### The Flags and the output steer nothing -/

/-- The bytes that an instruction emits: PRN the register it names, every other instruction none (R18). -/
def emittedBy : Instr → State → List Byte
  | .prn a, s => if ha : a.toNat < 8 then [s.x[a.toNat]'ha] else []
  | _, _ => []

theorem emittedBy_prn_in {a : Byte} (s : State) (ha : a.toNat < 8) :
    emittedBy (.prn a) s = [s.x[a.toNat]'ha] := dif_pos ha

theorem emittedBy_prn_out {a : Byte} (s : State) (ha : 7 < a.toNat) : emittedBy (.prn a) s = [] :=
  dif_neg (by omega)

/-- An instruction that emits is a PRN of a register that exists. -/
theorem prn_of_emittedBy_ne_nil {i : Instr} {s : State} (h : emittedBy i s ≠ []) :
    ∃ (a : Byte) (ha : a.toNat < 8), i = .prn a ∧ emittedBy i s = [s.x[a.toNat]'ha] := by
  cases i with
  | prn a =>
    by_cases ha : a.toNat < 8
    · exact ⟨a, ha, rfl, emittedBy_prn_in s ha⟩
    · exact absurd (emittedBy_prn_out s (by omega)) h
  | _ => exact absurd rfl h

/-- `F` takes `s` to `t`, keeping the Flags and appending `added` to the output; and from any other Flags `f`
and output `o` it does the same, with the rest of `t` unaffected. -/
structure AppendsOnly (F : State → Host.Outcome State Fault Refusal) (s t : State) (added : List Byte) :
    Prop where
  flags : t.flags = s.flags
  out : t.out = s.out ++ added
  rerun : ∀ f o : List Byte,
    F { s with flags := f, out := o } = .next { t with flags := f, out := o ++ added }

namespace AppendsOnly

variable {F : State → Host.Outcome State Fault Refusal} {s t u : State} {added more : List Byte}

/-- Nothing is appended where the Flags and the output are the same at the end. -/
theorem silent (hf : t.flags = s.flags) (ho : t.out = s.out)
    (h : ∀ f o : List Byte, F { s with flags := f, out := o } = .next { t with flags := f, out := o }) :
    AppendsOnly F s t [] where
  flags := hf
  out := by rw [ho, List.append_nil]
  rerun f o := by rw [h, List.append_nil]

/-- What an instruction does is what the step that fetches it does. -/
theorem step_of_exec (hr : s.run = .running) (hpc : s.pc ≤ 253)
    (h : AppendsOnly
      (exec (instrOf (s.byteAt s.pc) (s.byteAt (s.pc + 1)) (s.byteAt (s.pc + 2)))) s t added) :
    AppendsOnly step s t added where
  flags := h.flags
  out := h.out
  rerun f o := (step_fetchable (s := { s with flags := f, out := o }) hr hpc).trans (h.rerun f o)

/-- A step, and then a run. -/
theorem cons {k : Nat} (h : AppendsOnly step s t added) (hk : AppendsOnly (runSteps k) t u more) :
    AppendsOnly (runSteps (k + 1)) s u (added ++ more) where
  flags := hk.flags.trans h.flags
  out := by rw [hk.out, h.out, List.append_assoc]
  rerun f o := by rw [runSteps_succ (h.rerun f o), hk.rerun, List.append_assoc]

end AppendsOnly

/-- ADD and MUL append nothing, whichever of the alu's outcomes they meet. -/
theorem concludeAlu_appendsOnly {op : AluOp} {f : Byte → Byte → Byte} (hf : aluFunction op = some f)
    {a b : Byte} {s t : State} (h : conclude s ((alu op a b s).map (advance 3)) = .next t) :
    AppendsOnly (fun s => conclude s ((alu op a b s).map (advance 3))) s t [] := by
  rcases concludeAlu_inv hf h with ⟨ha, hb, rfl⟩ | ⟨ha, rfl⟩ | ⟨ha, hb, rfl⟩
  · exact .silent rfl rfl fun _ _ => by rw [alu_in hf _ ha hb]; rfl
  · exact .silent rfl rfl fun _ _ => by rw [alu_out_a hf _ ha]; rfl
  · exact .silent rfl rfl fun _ _ => by rw [alu_out_b hf _ ha hb]; rfl

/-- No instruction reads or writes the Flags, and the only bytes it appends are those it emits. -/
theorem exec_appendsOnly {i : Instr} {s t : State} (h : exec i s = .next t) :
    AppendsOnly (exec i) s t (emittedBy i s) := by
  cases i with
  | hlt =>
    obtain rfl := execHlt_inv h
    exact .silent rfl rfl fun _ _ => exec_hlt _
  | ldi a b =>
    rcases execLdi_inv h with ⟨ha, rfl⟩ | ⟨ha, rfl⟩
    · exact .silent rfl rfl fun _ _ => exec_ldi_in b _ ha
    · exact .silent rfl rfl fun _ _ => exec_ldi_out b _ ha
  | prn a =>
    rcases execPrn_inv h with ⟨ha, rfl⟩ | ⟨ha, rfl⟩
    · rw [emittedBy_prn_in s ha]
      exact ⟨rfl, rfl, fun _ _ => exec_prn_in _ ha⟩
    · rw [emittedBy_prn_out s ha]
      exact .silent rfl rfl fun _ _ => exec_prn_out _ ha
  | add a b => exact concludeAlu_appendsOnly (op := .add) rfl h
  | mul a b => exact concludeAlu_appendsOnly (op := .mul) rfl h
  | unrecognized op =>
    obtain rfl := execUnrecognized_inv h
    exact .silent rfl rfl fun _ _ => exec_unrecognized op _

/-- A step appends to the output and does nothing else with it or the Flags, final states included. -/
theorem step_appendsOnly {s t : State} (h : step s = .next t) : ∃ added, AppendsOnly step s t added := by
  by_cases hr : s.run = .running
  · rcases step_inv hr h with ⟨hpc, rfl⟩ | ⟨hpc, hx⟩
    · exact ⟨[], .silent rfl rfl fun f o =>
        step_unfetchable (s := { s with flags := f, out := o }) hr hpc⟩
    · exact ⟨_, .step_of_exec hr hpc (exec_appendsOnly hx)⟩
  · obtain rfl : s = t := Host.Outcome.next.inj ((step_final hr).symm.trans h)
    exact ⟨[], .silent rfl rfl fun f o => step_final (s := { s with flags := f, out := o }) hr⟩

/-- A run of any length appends to the output and does nothing else with it or the Flags. -/
theorem runSteps_appendsOnly {k : Nat} {s t : State} (h : runSteps k s = .next t) :
    ∃ added, AppendsOnly (runSteps k) s t added := by
  induction k generalizing s with
  | zero =>
    obtain rfl : s = t := Host.Outcome.next.inj h
    exact ⟨[], .silent rfl rfl fun _ _ => runSteps_zero _⟩
  | succ k ih =>
    obtain ⟨u, hu, hk⟩ := runSteps_succ_inv h
    obtain ⟨added, ha⟩ := step_appendsOnly hu
    obtain ⟨more, hm⟩ := ih hk
    exact ⟨added ++ more, ha.cons hm⟩

/-- A RUNNING step that changes the output is a PRN of a register that exists, and appends its value. -/
theorem step_changes_out {s t : State} (hr : s.run = .running) (h : step s = .next t)
    (hne : t.out ≠ s.out) :
    s.byteAt s.pc = 0x47#8 ∧ ∃ ha : (s.byteAt (s.pc + 1)).toNat < 8,
      t.out = s.out ++ [s.x[(s.byteAt (s.pc + 1)).toNat]] := by
  rcases step_inv hr h with ⟨-, rfl⟩ | ⟨-, hx⟩
  · exact absurd rfl hne
  · have hout := (exec_appendsOnly hx).out
    obtain ⟨a, ha, hi, he⟩ := prn_of_emittedBy_ne_nil fun hnil => hne (by rw [hout, hnil, List.append_nil])
    obtain ⟨hop, rfl⟩ := instrOf_eq_prn hi
    exact ⟨hop, ha, by rw [hout, he]⟩

/-- Fetch reads memory and the pc only. -/
theorem fetch_flags (s : State) (f : List Byte) : fetch { s with flags := f } = fetch s := rfl

/-- The trace line shows the pc, the fetched bytes and the registers, and not the Flags (R17, R84). -/
theorem traceLine_flags (enabled : Bool) (c : HexCase) (s : State) (f : List Byte) :
    traceLine enabled c { s with flags := f } = traceLine enabled c s := by
  simp only [traceLine, fetch_flags]

/-! ### The obligations of 10_state.md -/

/-- Settles O32: an index up to 7 is the one the register file answers, and any other raises. -/
theorem registerReadAndWrite : Obligations.RegisterReadAndWrite := by
  refine ⟨fun i s h => readReg_in s (by omega), fun i s h => readReg_out s (by omega),
    fun i v s h => ?_, fun i v s h => writeReg_out v s (by omega)⟩
  refine ⟨_, writeReg_in v s (show i < 8 by omega), rfl, fun j hj => ?_⟩
  simp only [Vector.getElem_set, eq_comm (a := j)]

/-- Settles O13, from the case split of `exec_run_cases` and `step_final`. -/
theorem runStateTransitions : Obligations.RunStateTransitions := by
  refine ⟨State.construct_run _ _, fun s t hr h => step_halts_iff hr h, fun s t e hr h ht => ?_,
    fun s t hr h => ?_⟩
  · rw [h, step_faulted hr h ht]
    rfl
  · rw [Host.Outcome.next.inj ((step_final hr).symm.trans h)]

/-- Settles O27, from `runSteps_appendsOnly` at the output that the run begins with. -/
theorem flagsAreInert : Obligations.FlagsAreInert := by
  refine ⟨Nat.le_add_left 1 _, List.length_ofFn, State.construct_flags, fun k s t f h => ?_,
    traceLine_flags⟩
  obtain ⟨added, hrun⟩ := runSteps_appendsOnly h
  exact ⟨hrun.flags, by simpa only [hrun.out] using hrun.rerun f s.out⟩

/-- Settles O28, from `runSteps_appendsOnly` at the Flags that the run begins with. -/
theorem onlyPrnAppendsToTheOutput : Obligations.OnlyPrnAppendsToTheOutput := by
  refine ⟨State.construct_out, fun s t hr h hne => step_changes_out hr h hne, fun k s t h => ?_⟩
  obtain ⟨added, hrun⟩ := runSteps_appendsOnly h
  refine ⟨added, hrun.out, fun o => ?_⟩
  simpa only [hrun.flags] using hrun.rerun s.flags o

end Sys2Proof.Machine

/-! ## Memory (20_memory.md)

A memory read and a memory write, and the frame of every instruction: none has memory among the fields it may
change, so no step and no run writes memory. -/

namespace Sys2Proof.Machine

/-! ### The frames of the instructions -/

/-- LDI writes no field but the registers, the pc and the run state. -/
theorem execLdi_frame {a b : Byte} {s t : State} (h : exec (.ldi a b) s = .next t) :
    t = { s with x := t.x, pc := t.pc, run := t.run } := by
  rcases execLdi_inv h with ⟨-, rfl⟩ | ⟨-, rfl⟩
  · rfl
  · rfl

/-- ADD and MUL write no field but the registers, the pc and the run state, whichever of the alu's outcomes
they meet. -/
theorem concludeAlu_frame {op : AluOp} {f : Byte → Byte → Byte} (hf : aluFunction op = some f)
    {a b : Byte} {s t : State} (h : conclude s ((alu op a b s).map (advance 3)) = .next t) :
    t = { s with x := t.x, pc := t.pc, run := t.run } := by
  rcases concludeAlu_inv hf h with ⟨-, -, rfl⟩ | ⟨-, rfl⟩ | ⟨-, -, rfl⟩
  · rfl
  · rfl
  · rfl

/-- ADD is `concludeAlu_frame` at the alu's sum. -/
theorem execAdd_frame {a b : Byte} {s t : State} (h : exec (.add a b) s = .next t) :
    t = { s with x := t.x, pc := t.pc, run := t.run } := concludeAlu_frame (op := .add) rfl h

/-- MUL is `concludeAlu_frame` at the alu's product. -/
theorem execMul_frame {a b : Byte} {s t : State} (h : exec (.mul a b) s = .next t) :
    t = { s with x := t.x, pc := t.pc, run := t.run } := concludeAlu_frame (op := .mul) rfl h

/-- PRN writes no field but the output, the pc and the run state. -/
theorem execPrn_frame {a : Byte} {s t : State} (h : exec (.prn a) s = .next t) :
    t = { s with out := t.out, pc := t.pc, run := t.run } := by
  rcases execPrn_inv h with ⟨-, rfl⟩ | ⟨-, rfl⟩
  · rfl
  · rfl

/-- HLT writes the run state only. -/
theorem execHlt_frame {s t : State} (h : exec .hlt s = .next t) : t = { s with run := t.run } := by
  obtain rfl := execHlt_inv h
  rfl

/-! ### Memory along a run -/

/-- No instruction has memory in its frame (R25). -/
theorem exec_mem {i : Instr} {s t : State} (h : exec i s = .next t) : t.mem = s.mem := by
  cases i with
  | hlt => rw [execHlt_frame h]
  | ldi a b => rw [execLdi_frame h]
  | prn a => rw [execPrn_frame h]
  | add a b => rw [execAdd_frame h]
  | mul a b => rw [execMul_frame h]
  | unrecognized op => rw [execUnrecognized_inv h]

/-- A step writes no memory: it takes Fetch's fault, runs an instruction, or leaves a final state as it is. -/
theorem step_mem {s t : State} (h : step s = .next t) : t.mem = s.mem := by
  by_cases hr : s.run = .running
  · rcases step_inv hr h with ⟨-, rfl⟩ | ⟨-, hx⟩
    · rfl
    · exact exec_mem hx
  · rw [Host.Outcome.next.inj ((step_final hr).symm.trans h)]

/-- Memory after any number of steps is what it was. -/
theorem runSteps_mem {k : Nat} {s t : State} (h : runSteps k s = .next t) : t.mem = s.mem := by
  induction k generalizing s with
  | zero => rw [Host.Outcome.next.inj ((runSteps_zero s).symm.trans h)]
  | succ k ih =>
    obtain ⟨u, hu, hk⟩ := runSteps_succ_inv h
    exact (ih hk).trans (step_mem hu)

/-! ### The obligations of 20_memory.md -/

/-- Settles O26, from the frames of the instructions and `runSteps_mem`. -/
theorem noInstructionWritesMemory : Obligations.NoInstructionWritesMemory := by
  refine ⟨fun s t h => execHlt_frame h, fun s t a b i hi h => ?_, fun s t a h => execPrn_frame h,
    fun i s t h => exec_mem h, fun k s t h => runSteps_mem h⟩
  rcases hi with rfl | rfl | rfl
  · exact execLdi_frame h
  · exact execAdd_frame h
  · exact execMul_frame h

/-- Settles O34: the write is a `Memory.poke`, whose laws give the byte read back, the other bytes and the
canonical form. -/
theorem memoryRoundTrip : Obligations.MemoryRoundTrip := by
  refine ⟨fun addr v s hm ha => ?_, fun addr v s ha => memWrite_out v s ha⟩
  have hw := memWrite_in v s ha
  refine ⟨_, hw, ?_, fun b hb => Memory.peek_poke_other s.mem v hb, memWrite_keeps_wf hm hw, rfl⟩
  rw [memRead_in _ ha, Memory.peek_poke_self hm]

/-- Settles O33, by the two cases of `memRead`. -/
theorem memoryReadRule : Obligations.MemoryReadRule :=
  fun _ s => ⟨fun h => memRead_in s h, fun h => memRead_out s h⟩

end Sys2Proof.Machine

/-! ## The step cycle (40_cycle.md)

The decoder's default row, the two ways an instruction leaves the pc, and the one way that memory reaches an
instruction: through the bytes that Fetch reads. -/

namespace Sys2Proof.Machine

/-! ### The decoder and the fetch window -/

/-- The default row of the decoder's table (R51). -/
theorem decodeOpcode_of_not_recognized {op : Byte} (h : op ∉ recognizedOpcodes) :
    decodeOpcode op = (.unknown, 1) := by
  rcases decodeOpcode_cases op with ⟨rfl, -⟩ | ⟨rfl, -⟩ | ⟨rfl, -⟩ | ⟨rfl, -⟩ | ⟨rfl, -⟩ | ⟨-, hd⟩
  iterate 5 exact absurd (by decide) h
  exact hd

theorem instrOf_of_not_recognized {op : Byte} (a b : Byte) (h : op ∉ recognizedOpcodes) :
    instrOf op a b = .unrecognized op := by
  rw [instrOf, decodeOpcode_of_not_recognized h]

/-- The width of an opcode is the number of bytes that spell its instruction (R46, R51). -/
theorem encode_instrOf_length (op a b : Byte) :
    (encode (instrOf op a b)).length = (decodeOpcode op).2 := by
  rcases decodeOpcode_cases op with ⟨-, hd⟩ | ⟨-, hd⟩ | ⟨-, hd⟩ | ⟨-, hd⟩ | ⟨-, hd⟩ | ⟨-, hd⟩
  iterate 6 simp [instrOf, hd, encode]

theorem decodeOpcode_width_mem (op : Byte) : (decodeOpcode op).2 ∈ [1, 2, 3] := by
  rcases decodeOpcode_cases op with ⟨-, hd⟩ | ⟨-, hd⟩ | ⟨-, hd⟩ | ⟨-, hd⟩ | ⟨-, hd⟩ | ⟨-, hd⟩
  iterate 6 simp [hd]

/-- HLT, PRN and an unrecognized opcode are the same instruction whatever their unused candidate bytes are
(R59). -/
theorem instrOf_ignores_unused {op a a' : Byte} (b b' : Byte) (hldi : op ≠ 0x82#8) (hadd : op ≠ 0xA0#8)
    (hmul : op ≠ 0xA2#8) (hprn : op = 0x47#8 → a' = a) : instrOf op a' b' = instrOf op a b := by
  rcases decodeOpcode_cases op with ⟨-, hd⟩ | ⟨hop, -⟩ | ⟨hop, -⟩ | ⟨hop, -⟩ | ⟨hop, -⟩ | ⟨-, hd⟩
  · simp only [instrOf, hd]
  · exact absurd hop hldi
  · subst hop
    rw [hprn rfl]
    rfl
  · exact absurd hop hadd
  · exact absurd hop hmul
  · simp only [instrOf, hd]

/-- `step_fetchable` in the form in which the statements read memory. -/
theorem step_fetchable_byteAt {s : State} (hr : s.run = .running) (hpc : s.pc ≤ 253) :
    step s = exec (instrOf (s.byteAt s.pc) (s.byteAt (s.pc + 1)) (s.byteAt (s.pc + 2))) s :=
  step_fetchable hr hpc

/-! ### The pc -/

/-- ADD and MUL move the pc past their three bytes, or raise and leave it. -/
theorem concludeAlu_pc_cases {op : AluOp} {f : Byte → Byte → Byte} (hf : aluFunction op = some f)
    {a b : Byte} {s t : State} (h : conclude s ((alu op a b s).map (advance 3)) = .next t) :
    (t.run = s.run ∧ t.pc = s.pc + 3) ∨ (t.run ≠ .running ∧ t.pc = s.pc) := by
  rcases concludeAlu_inv hf h with ⟨-, -, rfl⟩ | ⟨-, rfl⟩ | ⟨-, -, rfl⟩
  · exact .inl ⟨rfl, rfl⟩
  · exact .inr ⟨nofun, rfl⟩
  · exact .inr ⟨nofun, rfl⟩

/-- An instruction keeps the run state and moves the pc past its own bytes, or ends the run and leaves the pc
(R54). -/
theorem exec_pc_cases {i : Instr} {s t : State} (h : exec i s = .next t) :
    (t.run = s.run ∧ t.pc = s.pc + (encode i).length) ∨ (t.run ≠ .running ∧ t.pc = s.pc) := by
  cases i with
  | hlt =>
    obtain rfl := execHlt_inv h
    exact .inr ⟨nofun, rfl⟩
  | ldi a b =>
    rcases execLdi_inv h with ⟨-, rfl⟩ | ⟨-, rfl⟩
    · exact .inl ⟨rfl, rfl⟩
    · exact .inr ⟨nofun, rfl⟩
  | prn a =>
    rcases execPrn_inv h with ⟨-, rfl⟩ | ⟨-, rfl⟩
    · exact .inl ⟨rfl, rfl⟩
    · exact .inr ⟨nofun, rfl⟩
  | add a b => exact concludeAlu_pc_cases (op := .add) rfl h
  | mul a b => exact concludeAlu_pc_cases (op := .mul) rfl h
  | unrecognized op =>
    obtain rfl := execUnrecognized_inv h
    exact .inl ⟨rfl, rfl⟩

/-- A RUNNING step stays RUNNING and advances the pc by the decoder's width, or ends the run where it stands
(R54). -/
theorem step_pc_cases {s t : State} (hr : s.run = .running) (h : step s = .next t) :
    (t.run = .running ∧ t.pc = s.pc + (decodeOpcode (s.byteAt s.pc)).2) ∨
      (t.run ≠ .running ∧ t.pc = s.pc) := by
  rcases step_inv hr h with ⟨-, rfl⟩ | ⟨-, hx⟩
  · exact .inr ⟨nofun, rfl⟩
  · simpa only [hr, encode_instrOf_length] using exec_pc_cases hx

/-! ### Memory reaches an instruction through Fetch only -/

/-- ADD and MUL do the same over any memory. -/
theorem concludeAlu_mem_irrelevant {op : AluOp} {f : Byte → Byte → Byte} (hf : aluFunction op = some f)
    {a b : Byte} {s t : State} (m : List Host.Cell)
    (h : conclude s ((alu op a b s).map (advance 3)) = .next t) :
    conclude { s with mem := m } ((alu op a b { s with mem := m }).map (advance 3)) =
      .next { t with mem := m } := by
  rcases concludeAlu_inv hf h with ⟨ha, hb, rfl⟩ | ⟨ha, rfl⟩ | ⟨ha, hb, rfl⟩
  · rw [alu_in hf _ ha hb]; rfl
  · rw [alu_out_a hf _ ha]; rfl
  · rw [alu_out_b hf _ ha hb]; rfl

/-- An instruction, once decoded, does the same over any memory. -/
theorem exec_mem_irrelevant {i : Instr} {s t : State} (m : List Host.Cell) (h : exec i s = .next t) :
    exec i { s with mem := m } = .next { t with mem := m } := by
  cases i with
  | hlt =>
    obtain rfl := execHlt_inv h
    exact exec_hlt _
  | ldi a b =>
    rcases execLdi_inv h with ⟨ha, rfl⟩ | ⟨ha, rfl⟩
    · exact exec_ldi_in b _ ha
    · exact exec_ldi_out b _ ha
  | prn a =>
    rcases execPrn_inv h with ⟨ha, rfl⟩ | ⟨ha, rfl⟩
    · exact exec_prn_in _ ha
    · exact exec_prn_out _ ha
  | add a b => exact concludeAlu_mem_irrelevant (op := .add) rfl m h
  | mul a b => exact concludeAlu_mem_irrelevant (op := .mul) rfl m h
  | unrecognized op =>
    obtain rfl := execUnrecognized_inv h
    exact exec_unrecognized op _

/-- A RUNNING step over another memory is the same step, where the two windows are the same instruction. -/
theorem step_of_same_instr {s t : State} {m : List Host.Cell} (hr : s.run = .running)
    (hi : instrOf (Memory.peek m s.pc) (Memory.peek m (s.pc + 1)) (Memory.peek m (s.pc + 2)) =
      instrOf (s.byteAt s.pc) (s.byteAt (s.pc + 1)) (s.byteAt (s.pc + 2)))
    (h : step s = .next t) : step { s with mem := m } = .next { t with mem := m } := by
  rcases step_inv hr h with ⟨hpc, rfl⟩ | ⟨hpc, hx⟩
  · exact step_unfetchable (s := { s with mem := m }) hr hpc
  · rw [step_fetchable (s := { s with mem := m }) hr hpc, hi]
    exact exec_mem_irrelevant m hx

/-! ### The obligations of 40_cycle.md -/

/-- Settles O6: the window is read whole up to pc 253, and above it `max s.pc 256` is the first address above
255. -/
theorem fetchReadsThreeBytesAndReportsTheFirstBadAddress :
    Obligations.FetchReadsThreeBytesAndReportsTheFirstBadAddress := by
  refine ⟨fun s => ?_, fun s hr hpc => ?_⟩
  · split_ifs with h0 h1 h2
    · rw [fetch_out (by omega), Nat.max_eq_left (by omega)]
    · rw [fetch_out (by omega), show max s.pc 256 = s.pc + 1 by omega]
    · rw [fetch_out (by omega), show max s.pc 256 = s.pc + 2 by omega]
    · exact fetch_in (by omega)
  · rw [step_unfetchable hr (by omega), Nat.max_eq_right (by omega)]
    rfl

/-- Settles O12, by the two cases of `step_pc_cases`. -/
theorem pcAdvancesByTheWidth : Obligations.PcAdvancesByTheWidth := by
  intro s t hr h
  have hwidth := decodeOpcode_width_mem (s.byteAt s.pc)
  rcases step_pc_cases hr h with ⟨hrun, hpc⟩ | ⟨hrun, hpc⟩
  · exact ⟨fun _ => hpc, fun hne => absurd hrun hne, hwidth⟩
  · exact ⟨fun heq => absurd heq hrun, fun _ => hpc, hwidth⟩

/-- Settles O15: the two fetch windows are the same instruction, which never looks at memory. -/
theorem unusedOperandBytesAreDiscarded : Obligations.UnusedOperandBytesAreDiscarded := by
  intro s t m hr hldi hadd hmul hop hprn h
  refine step_of_same_instr hr ?_ h
  rw [hop]
  exact instrOf_ignores_unused _ _ hldi hadd hmul hprn

/-- Settles O22: the decoder's default row, run at a fetchable pc. -/
theorem unrecognizedOpcodeAdvancesByOne : Obligations.UnrecognizedOpcodeAdvancesByOne := by
  refine ⟨fun op a b hop => ⟨instrOf_of_not_recognized a b hop, rfl⟩,
    fun s op => exec_unrecognized op s, fun s hr hop => ?_⟩
  split_ifs with hpc
  · rw [step_fetchable_byteAt hr hpc, instrOf_of_not_recognized _ _ hop, exec_unrecognized]
  · exact step_unfetchable hr (by omega)

/-- Settles O3: the five recognized rows and `decodeOpcode_of_not_recognized`. -/
theorem opcodeTableIsTotal : Obligations.OpcodeTableIsTotal := by
  refine ⟨decodeOpcode_hlt, decodeOpcode_ldi, decodeOpcode_prn, decodeOpcode_add, decodeOpcode_mul,
    fun op h1 h2 h3 h4 h5 => decodeOpcode_of_not_recognized ?_⟩
  simp [recognizedOpcodes, h1, h2, h3, h4, h5]

end Sys2Proof.Machine

/-! ## HLT (41_hlt.md)

The whole of a RUNNING step as one equation, what it is at an HLT byte, and where a step that halts stood. -/

namespace Sys2Proof.Machine

/-- A RUNNING step runs the instruction of the fetch window, or takes Fetch's fault (R50, R52). -/
theorem step_running {s : State} (hr : s.run = .running) :
    step s = if s.pc ≤ 253
      then exec (instrOf (s.byteAt s.pc) (s.byteAt (s.pc + 1)) (s.byteAt (s.pc + 2))) s
      else .next s.fetchFault := by
  split_ifs with hpc
  · exact step_fetchable_byteAt hr hpc
  · exact step_unfetchable hr (by omega)

/-- Every window that begins with the byte 0x01 is HLT (R36, R60). -/
theorem instrOf_hlt (a b : Byte) : instrOf 0x01#8 a b = .hlt := (instrOf_eq_hlt_iff _ a b).2 rfl

/-- At an HLT byte, Fetch's fault comes before HLT's effect (R60). -/
theorem step_at_hlt {s : State} (hr : s.run = .running) (hop : s.byteAt s.pc = 0x01#8) :
    step s = .next (if s.pc ≤ 253 then { s with run := .halted } else s.fetchFault) := by
  rw [step_running hr, hop, instrOf_hlt, exec_hlt, apply_ite Host.Outcome.next]

/-- HALTED is entered only from a fetchable HLT (R16, R60). -/
theorem hlt_of_step_halted {s t : State} (hr : s.run = .running) (h : step s = .next t)
    (ht : t.run = .halted) : s.pc ≤ 253 ∧ s.byteAt s.pc = 0x01#8 := by
  rcases step_inv hr h with ⟨-, rfl⟩ | ⟨hpc, hx⟩
  · cases ht
  · have hhlt := (exec_halts_iff hr hx).1 ht
    exact ⟨hpc, (instrOf_eq_hlt_iff _ _ _).1 hhlt⟩

/-- A HALTED machine stays as it is (R53). -/
theorem step_halted {s : State} (hs : s.run = .halted) : step s = .next s :=
  step_final (by simp [hs])

/-- Settles O17: the equations of HLT and of a step at an HLT byte, the inversion of a step that halts, and the
rest of a HALTED machine. -/
theorem hltHalts : Obligations.HltHalts :=
  ⟨instrOf_hlt, rfl, exec_hlt, fun _ hr hop => step_at_hlt hr hop,
    fun _ _ hr h ht => hlt_of_step_halted hr h ht,
    fun _ _ hs h => Host.Outcome.next.inj (h.symm.trans (step_halted hs)), rfl⟩

end Sys2Proof.Machine

/-! ## LDI (42_ldi.md)

The window of an LDI, and what a RUNNING step at an LDI byte is. -/

namespace Sys2Proof.Machine

/-- Every window that begins with the byte 0x82 is LDI of its two candidate bytes (R61). -/
theorem instrOf_ldi (a b : Byte) : instrOf 0x82#8 a b = .ldi a b := by
  rw [instrOf, decodeOpcode_ldi]

/-- At an LDI byte, Fetch's fault comes before LDI's own effect or fault (R61). -/
theorem step_at_ldi {s : State} (hr : s.run = .running) (hop : s.byteAt s.pc = 0x82#8) :
    step s = if s.pc ≤ 253 then exec (.ldi (s.byteAt (s.pc + 1)) (s.byteAt (s.pc + 2))) s
      else .next s.fetchFault := by
  rw [step_running hr, hop, instrOf_ldi]

/-- Settles O18: the encoding of LDI, its two equations by the register index, and a step at an LDI byte. -/
theorem ldiLoadsTheLiteral : Obligations.LdiLoadsTheLiteral :=
  ⟨fun a b => ⟨instrOf_ldi a b, rfl⟩, fun s _ b ha => exec_ldi_in b s ha,
    fun s _ b ha => exec_ldi_out b s ha, fun _ hr hop => step_at_ldi hr hop⟩

end Sys2Proof.Machine

/-! ## PRN (43_prn.md)

What a RUNNING step at a PRN byte is, and the text of the output: the model's numeral of a byte is the library's
decimal numeral of its value. -/

namespace Sys2Proof.Machine

/-! ### The instruction -/

/-- Every window that begins with the byte 0x47 is PRN of its first candidate byte (R62). -/
theorem instrOf_prn (a b : Byte) : instrOf 0x47#8 a b = .prn a := by
  rw [instrOf, decodeOpcode_prn]

/-- At a PRN byte, Fetch's fault comes before PRN's own effect or fault (R62). -/
theorem step_at_prn {s : State} (hr : s.run = .running) (hop : s.byteAt s.pc = 0x47#8) :
    step s = if s.pc ≤ 253 then exec (.prn (s.byteAt (s.pc + 1))) s else .next s.fetchFault := by
  rw [step_running hr, hop, instrOf_prn]

/-- Settles O19: the encoding of PRN, its two equations by the register index, and a step at a PRN byte. -/
theorem prnEmitsTheRegister : Obligations.PrnEmitsTheRegister :=
  ⟨fun a b => ⟨instrOf_prn a b, rfl⟩, fun s _ ha => exec_prn_in s ha, fun s _ ha => exec_prn_out s ha,
    fun _ hr hop => step_at_prn hr hop⟩

/-! ### The rendered output -/

/-- The model's ASCII digit is the library's. -/
theorem decimalDigit_eq_digitChar {n : Nat} (h : n < 10) : decimalDigit n = Nat.digitChar n := by
  have hall : ∀ m < 10, decimalDigit m = Nat.digitChar m := by decide
  exact hall n h

theorem toDigits_of_lt_hundred {n : Nat} (h10 : 10 ≤ n) (h100 : n < 100) :
    Nat.toDigits 10 n = [decimalDigit (n / 10), decimalDigit (n % 10)] := by
  rw [Nat.toDigits_of_base_le (by decide) h10, Nat.toDigits_of_lt_base (by omega),
    decimalDigit_eq_digitChar (by omega), decimalDigit_eq_digitChar (by omega)]
  rfl

theorem toDigits_of_lt_thousand {n : Nat} (h100 : 100 ≤ n) (h1000 : n < 1000) :
    Nat.toDigits 10 n = [decimalDigit (n / 100), decimalDigit (n / 10 % 10), decimalDigit (n % 10)] := by
  rw [Nat.toDigits_of_base_le (by decide) (by omega), toDigits_of_lt_hundred (by omega) (by omega),
    Nat.div_div_eq_div_mul, ← decimalDigit_eq_digitChar (by omega : n % 10 < 10)]
  rfl

/-- The numeral of a byte has no leading zero: it is the library's, by its one, two or three digits (R63). -/
theorem decimalNumeral_eq_toDigits (v : Byte) : decimalNumeral v = Nat.toDigits 10 v.toNat := by
  rw [decimalNumeral]
  split_ifs with h10 h100
  · rw [Nat.toDigits_of_lt_base h10, decimalDigit_eq_digitChar h10]
  · exact (toDigits_of_lt_hundred (by omega) h100).symm
  · exact (toDigits_of_lt_thousand (by omega) (by omega)).symm

theorem decimalNumeral_length (v : Byte) :
    1 ≤ (decimalNumeral v).length ∧ (decimalNumeral v).length ≤ 3 := by
  rw [decimalNumeral_eq_toDigits]
  exact ⟨Nat.length_toDigits_pos, (Nat.length_toDigits_le_iff (by decide) (by decide)).2 (by omega)⟩

/-- Emitting a byte adds its line at the end of the text (R63). -/
theorem renderOutput_append_byte (out : List Byte) (v : Byte) :
    renderOutput (out ++ [v]) = renderOutput out ++ renderByte v := by
  rw [renderOutput, List.flatMap_append, List.flatMap_singleton]
  rfl

/-- Settles O40: a byte adds one line, whose numeral is the library's. -/
theorem outputRendersAsDecimalLines : Obligations.OutputRendersAsDecimalLines := by
  refine ⟨rfl, fun out v => ?_, decimalNumeral_length⟩
  rw [renderOutput_append_byte, renderByte, decimalNumeral_eq_toDigits, List.append_assoc]

end Sys2Proof.Machine

/-! ## The alu, ADD and MUL (44_alu.md)

The arithmetic of the two supported operations, the outcomes that ADD and MUL share, and why no step raises
UnsupportedOperation: an instruction that raises has made an access out of range. -/

namespace Sys2Proof.Machine

/-! ### The arithmetic -/

theorem aluAdd_toNat (u v : Byte) : (aluAdd u v).toNat = (u.toNat + v.toNat) % 256 := BitVec.toNat_ofNat _ _

theorem aluMul_toNat (u v : Byte) : (aluMul u v).toNat = (u.toNat * v.toNat) % 256 := BitVec.toNat_ofNat _ _

theorem aluAdd_eq_ofNat_mod (u v : Byte) : aluAdd u v = BitVec.ofNat 8 ((u.toNat + v.toNat) % 256) := by
  rw [← aluAdd_toNat, BitVec.ofNat_toNat, BitVec.setWidth_eq]

theorem aluMul_eq_ofNat_mod (u v : Byte) : aluMul u v = BitVec.ofNat 8 ((u.toNat * v.toNat) % 256) := by
  rw [← aluMul_toNat, BitVec.ofNat_toNat, BitVec.setWidth_eq]

/-- The product of the signed values, narrowed to a byte, is the unsigned one's byte: both are the product of
the ring of bytes (R68). -/
theorem aluMul_eq_signed (u v : Byte) : aluMul u v = BitVec.ofInt 8 (u.toInt * v.toInt) := by
  calc aluMul u v
    _ = u * v := BitVec.eq_of_toNat_eq ((aluMul_toNat u v).trans (BitVec.toNat_mul u v).symm)
    _ = BitVec.ofInt 8 (u.toInt * v.toInt) := by
      rw [BitVec.ofInt_mul, BitVec.ofInt_toInt, BitVec.ofInt_toInt]

/-! ### The operations -/

/-- ADD and MUL are the only operations the alu supports (R66). -/
theorem aluFunction_unsupported {op : AluOp} (hadd : op ≠ .add) (hmul : op ≠ .mul) :
    aluFunction op = none := by
  cases op with
  | add => exact absurd rfl hadd
  | mul => exact absurd rfl hmul
  | sub => rfl
  | other id => rfl

/-- An unsupported operation raises whatever the registers and the indices are (R67). -/
theorem alu_unsupported {op : AluOp} (hf : aluFunction op = none) (a b : Byte) (s : State) :
    alu op a b s = .error (.unsupportedOperation op s.pc) := by
  rw [alu, hf]

/-! ### The outcomes that ADD and MUL share -/

section concludeAlu
variable {op : AluOp} {f : Byte → Byte → Byte} (hf : aluFunction op = some f) {a b : Byte} (s : State)
include hf

theorem concludeAlu_in (ha : a.toNat < 8) (hb : b.toNat < 8) :
    conclude s ((alu op a b s).map (advance 3)) = .next
      { s with x := s.x.set a.toNat (f (s.x[a.toNat]'ha) (s.x[b.toNat]'hb)) ha, pc := s.pc + 3 } := by
  rw [alu_in hf s ha hb]
  rfl

theorem concludeAlu_out_a (ha : 7 < a.toNat) :
    conclude s ((alu op a b s).map (advance 3)) =
      .next (s.withFault (.outOfRange .register a.toNat .read s.pc)) := by
  rw [alu_out_a hf s ha]
  rfl

theorem concludeAlu_out_b (ha : a.toNat ≤ 7) (hb : 7 < b.toNat) :
    conclude s ((alu op a b s).map (advance 3)) =
      .next (s.withFault (.outOfRange .register b.toNat .read s.pc)) := by
  rw [alu_out_b hf s ha hb]
  rfl

end concludeAlu

/-! ### The two instructions -/

theorem exec_add (a b : Byte) (s : State) :
    exec (.add a b) s = conclude s ((alu .add a b s).map (advance 3)) := rfl

theorem exec_mul (a b : Byte) (s : State) :
    exec (.mul a b) s = conclude s ((alu .mul a b s).map (advance 3)) := rfl

/-- Every window that begins with the byte 0xA0 is ADD of its two candidate bytes (R69). -/
theorem instrOf_add (a b : Byte) : instrOf 0xA0#8 a b = .add a b := by
  rw [instrOf, decodeOpcode_add]

/-- Every window that begins with the byte 0xA2 is MUL of its two candidate bytes (R70). -/
theorem instrOf_mul (a b : Byte) : instrOf 0xA2#8 a b = .mul a b := by
  rw [instrOf, decodeOpcode_mul]

/-- At an ADD byte, Fetch's fault comes before ADD's own effect or fault (R69). -/
theorem step_at_add {s : State} (hr : s.run = .running) (hop : s.byteAt s.pc = 0xA0#8) :
    step s = if s.pc ≤ 253 then exec (.add (s.byteAt (s.pc + 1)) (s.byteAt (s.pc + 2))) s
      else .next s.fetchFault := by
  rw [step_running hr, hop, instrOf_add]

/-- At a MUL byte, Fetch's fault comes before MUL's own effect or fault (R70). -/
theorem step_at_mul {s : State} (hr : s.run = .running) (hop : s.byteAt s.pc = 0xA2#8) :
    step s = if s.pc ≤ 253 then exec (.mul (s.byteAt (s.pc + 1)) (s.byteAt (s.pc + 2))) s
      else .next s.fetchFault := by
  rw [step_running hr, hop, instrOf_mul]

/-! ### Every fault of a step is an access out of range -/

/-- The fault of an access that is out of range, and not of an operation. -/
def Fault.IsOutOfRange : Fault → Prop
  | .outOfRange _ _ _ _ => True
  | .unsupportedOperation _ _ => False

/-- ADD and MUL raise nothing, or the read of a register that does not exist. -/
theorem concludeAlu_faults {op : AluOp} {f : Byte → Byte → Byte} (hf : aluFunction op = some f)
    {a b : Byte} {s t : State} (h : conclude s ((alu op a b s).map (advance 3)) = .next t) :
    t.run = s.run ∨ ∃ e : Fault, t.run = .faulted e ∧ e.IsOutOfRange := by
  rcases concludeAlu_inv hf h with ⟨-, -, rfl⟩ | ⟨-, rfl⟩ | ⟨-, -, rfl⟩
  · exact .inl rfl
  · exact .inr ⟨_, rfl, trivial⟩
  · exact .inr ⟨_, rfl, trivial⟩

/-- Every fault that an instruction raises is an access out of range (R72, R73). -/
theorem exec_faults {i : Instr} {s t : State} (h : exec i s = .next t) :
    t.run = s.run ∨ t.run = .halted ∨ ∃ e : Fault, t.run = .faulted e ∧ e.IsOutOfRange := by
  cases i with
  | hlt =>
    obtain rfl := execHlt_inv h
    exact .inr (.inl rfl)
  | ldi a b =>
    rcases execLdi_inv h with ⟨-, rfl⟩ | ⟨-, rfl⟩
    · exact .inl rfl
    · exact .inr (.inr ⟨_, rfl, trivial⟩)
  | prn a =>
    rcases execPrn_inv h with ⟨-, rfl⟩ | ⟨-, rfl⟩
    · exact .inl rfl
    · exact .inr (.inr ⟨_, rfl, trivial⟩)
  | add a b => exact (concludeAlu_faults (op := .add) rfl h).imp_right .inr
  | mul a b => exact (concludeAlu_faults (op := .mul) rfl h).imp_right .inr
  | unrecognized op =>
    obtain rfl := execUnrecognized_inv h
    exact .inl rfl

/-- Every fault that a RUNNING step raises is an access out of range (R73). -/
theorem step_faulted_isOutOfRange {s t : State} {e : Fault} (hr : s.run = .running)
    (h : step s = .next t) (ht : t.run = .faulted e) : e.IsOutOfRange := by
  rcases step_inv hr h with ⟨-, rfl⟩ | ⟨-, hx⟩
  · cases ht
    trivial
  · rcases exec_faults hx with hrun | hrun | ⟨e', hrun, he⟩
    · cases ht.symm.trans (hrun.trans hr)
    · cases ht.symm.trans hrun
    · cases ht.symm.trans hrun
      exact he

/-! ### The obligations of 44_alu.md -/

/-- Settles O20, by the outcomes that ADD and MUL share, at the sum. -/
theorem addAddsModulo256 : Obligations.AddAddsModulo256 := by
  refine ⟨fun a b => ⟨instrOf_add a b, rfl⟩, fun s a b ha hb => ?_,
    fun s a b ha => concludeAlu_out_a (op := .add) rfl s ha,
    fun s a b ha hb => concludeAlu_out_b (op := .add) rfl s ha hb, fun s hr hop => step_at_add hr hop⟩
  rw [exec_add, concludeAlu_in (op := .add) rfl s ha hb, aluAdd_eq_ofNat_mod]

/-- Settles O21, by the outcomes that ADD and MUL share, at the product. -/
theorem mulMultipliesModulo256 : Obligations.MulMultipliesModulo256 := by
  refine ⟨fun a b => ⟨instrOf_mul a b, rfl⟩, fun s a b ha hb => ?_,
    fun s a b ha => concludeAlu_out_a (op := .mul) rfl s ha,
    fun s a b ha hb => concludeAlu_out_b (op := .mul) rfl s ha hb, fun s hr hop => step_at_mul hr hop⟩
  rw [exec_mul, concludeAlu_in (op := .mul) rfl s ha hb, aluMul_eq_ofNat_mod]

/-- Settles O29: the four outcomes of the alu, in the order of its checks. -/
theorem aluContract : Obligations.AluContract := fun _ a b s =>
  ⟨fun hf => alu_unsupported hf a b s, fun _ hf =>
    ⟨fun ha => alu_out_a hf s ha, fun ha hb => alu_out_b hf s ha hb, fun ha hb => alu_in hf s ha hb⟩⟩

/-- Settles O30: the operation is checked first, and a step's fault is an access out of range. -/
theorem unsupportedOperationIsUnreachable : Obligations.UnsupportedOperationIsUnreachable :=
  ⟨fun _ a b s hadd hmul => alu_unsupported (aluFunction_unsupported hadd hmul) a b s,
    fun _ _ hr h _ _ ht => step_faulted_isOutOfRange hr h ht⟩

/-- Settles O31: the values of the sum and the product, and `alu_ok` for the Flags. -/
theorem aluArithmeticLaws : Obligations.AluArithmeticLaws := by
  refine ⟨⟨aluAdd, aluMul, rfl, rfl, fun u v => ⟨aluAdd_toNat u v, aluMul_toNat u v,
    aluMul_eq_signed u v⟩⟩, fun op a b s t h => ?_, fun op hadd hmul => aluFunction_unsupported hadd hmul⟩
  obtain ⟨f, ha, hb, -, rfl⟩ := alu_ok h
  rfl

end Sys2Proof.Machine

/-! ## Exceptions (60_exceptions.md)

The register access that an instruction can raise, as a function of the instruction; both sides of the table
of raisers are read off it. Then the trace line as text, and the exit statuses. -/

namespace Sys2Proof.Machine

/-! ### The fault of an instruction -/

/-- The fault of an access to register `i` at `pc`, where `i` is no register (R10, R12). -/
def registerFault (i : Nat) (access : Access) (pc : Nat) : Option Fault :=
  if 7 < i then some (.outOfRange .register i access pc) else none

/-- What an instruction at `pc` raises: the fault of its first register access that has one (R72, R74). -/
def raisedBy (pc : Nat) : Instr → Option Fault
  | .hlt => none
  | .ldi a _ => registerFault a.toNat .write pc
  | .prn a => registerFault a.toNat .read pc
  | .add a b => (registerFault a.toNat .read pc).or (registerFault b.toNat .read pc)
  | .mul a b => (registerFault a.toNat .read pc).or (registerFault b.toNat .read pc)
  | .unrecognized _ => none

theorem registerFault_in {i : Nat} (access : Access) (pc : Nat) (h : i < 8) :
    registerFault i access pc = none := if_neg (by omega)

theorem registerFault_out {i : Nat} (access : Access) (pc : Nat) (h : 7 < i) :
    registerFault i access pc = some (.outOfRange .register i access pc) := if_pos h

theorem registerFault_eq_some_iff {i : Nat} {access : Access} {pc : Nat} {e : Fault} :
    registerFault i access pc = some e ↔ 7 < i ∧ e = .outOfRange .register i access pc := by
  simp [registerFault, eq_comm]

theorem registerFault_eq_none_iff {i : Nat} {access : Access} {pc : Nat} :
    registerFault i access pc = none ↔ i ≤ 7 := by
  simp [registerFault]

/-- ADD and MUL read `x[a]` before `x[b]` and raise the first read that is out of range. -/
theorem concludeAlu_raises {op : AluOp} {f : Byte → Byte → Byte} (hf : aluFunction op = some f)
    {a b : Byte} {s t : State} (hr : s.run = .running)
    (h : conclude s ((alu op a b s).map (advance 3)) = .next t) (e : Fault) :
    t.run = .faulted e ↔
      (registerFault a.toNat .read s.pc).or (registerFault b.toNat .read s.pc) = some e := by
  rcases concludeAlu_inv hf h with ⟨ha, hb, rfl⟩ | ⟨ha, rfl⟩ | ⟨ha, hb, rfl⟩
  · simp [hr, registerFault_in _ _ ha, registerFault_in _ _ hb]
  · simp [registerFault_out _ _ ha]
  · simp [registerFault_in _ _ (Nat.lt_succ_of_le ha), registerFault_out _ _ hb]

/-- An instruction raises its fault and no other. -/
theorem exec_raises {i : Instr} {s t : State} (hr : s.run = .running) (h : exec i s = .next t)
    (e : Fault) : t.run = .faulted e ↔ raisedBy s.pc i = some e := by
  cases i with
  | hlt =>
    obtain rfl := execHlt_inv h
    simp [raisedBy]
  | ldi a b =>
    rcases execLdi_inv h with ⟨ha, rfl⟩ | ⟨ha, rfl⟩
    · simp [hr, raisedBy, registerFault_in _ _ ha]
    · simp [raisedBy, registerFault_out _ _ ha]
  | prn a =>
    rcases execPrn_inv h with ⟨ha, rfl⟩ | ⟨ha, rfl⟩
    · simp [hr, raisedBy, registerFault_in _ _ ha]
    · simp [raisedBy, registerFault_out _ _ ha]
  | add a b => exact concludeAlu_raises (op := .add) rfl hr h e
  | mul a b => exact concludeAlu_raises (op := .mul) rfl hr h e
  | unrecognized op =>
    obtain rfl := execUnrecognized_inv h
    simp [hr, raisedBy]

/-! ### The table of raisers -/

/-- Above pc 253 the table gives Fetch's fault only. -/
theorem faultExplained_unfetchable {s : State} (hpc : 254 ≤ s.pc) (e : Fault) :
    FaultExplained s e ↔ e = .outOfRange .memory (max s.pc 256) .read s.pc := by
  rcases e with ⟨_ | _, index, access, pc⟩ | ⟨op, pc⟩
  · simp [FaultExplained, hpc]
  · simp [FaultExplained, show ¬ s.pc ≤ 253 by omega]
  · simp [FaultExplained]

/-- Up to pc 253 the table's three rows are the register accesses of the opcodes that make them. -/
theorem faultExplained_fetchable_rows {s : State} (hpc : s.pc ≤ 253) (e : Fault) :
    FaultExplained s e ↔
      (s.byteAt s.pc = 0x82#8 ∧ registerFault (s.byteAt (s.pc + 1)).toNat .write s.pc = some e) ∨
      (s.byteAt s.pc ∈ [0x47#8, 0xA0#8, 0xA2#8] ∧
        registerFault (s.byteAt (s.pc + 1)).toNat .read s.pc = some e) ∨
      (s.byteAt s.pc ∈ [0xA0#8, 0xA2#8] ∧ (s.byteAt (s.pc + 1)).toNat ≤ 7 ∧
        registerFault (s.byteAt (s.pc + 2)).toNat .read s.pc = some e) := by
  simp only [registerFault_eq_some_iff]
  rcases e with ⟨_ | _, index, access, pc⟩ | ⟨op, pc⟩
  · simp [FaultExplained, show ¬ 254 ≤ s.pc by omega]
  · simp only [FaultExplained, Fault.outOfRange.injEq]
    constructor
    · rintro ⟨-, hout, rfl, ⟨rfl, hop, rfl⟩ | ⟨rfl, hop, rfl⟩ | ⟨rfl, hop, ha, rfl⟩⟩
      · exact .inl ⟨hop, hout, trivial, rfl, rfl, rfl⟩
      · exact .inr (.inl ⟨hop, hout, trivial, rfl, rfl, rfl⟩)
      · exact .inr (.inr ⟨hop, ha, hout, trivial, rfl, rfl, rfl⟩)
    · rintro (⟨hop, hout, -, rfl, rfl, rfl⟩ | ⟨hop, hout, -, rfl, rfl, rfl⟩ |
        ⟨hop, ha, hout, -, rfl, rfl, rfl⟩)
      · exact ⟨hpc, hout, rfl, .inl ⟨rfl, hop, rfl⟩⟩
      · exact ⟨hpc, hout, rfl, .inr (.inl ⟨rfl, hop, rfl⟩)⟩
      · exact ⟨hpc, hout, rfl, .inr (.inr ⟨rfl, hop, ha, rfl⟩)⟩
  · simp [FaultExplained]

/-- Up to pc 253 the table gives the fault of the instruction in the fetch window. -/
theorem faultExplained_fetchable {s : State} (hpc : s.pc ≤ 253) (e : Fault) :
    FaultExplained s e ↔
      raisedBy s.pc (instrOf (s.byteAt s.pc) (s.byteAt (s.pc + 1)) (s.byteAt (s.pc + 2))) = some e := by
  rw [faultExplained_fetchable_rows hpc]
  rcases instrOf_cases (s.byteAt s.pc) (s.byteAt (s.pc + 1)) (s.byteAt (s.pc + 2)) with
    ⟨hop, hi⟩ | ⟨hop, hi⟩ | ⟨hop, hi⟩ | ⟨hop, hi⟩ | ⟨hop, hi⟩ | ⟨hop, hi⟩
  all_goals rw [hi]
  iterate 3 simp [hop, raisedBy]
  iterate 2 simp [hop, raisedBy, registerFault_eq_none_iff]
  simp only [recognizedOpcodes, List.mem_cons, not_or] at hop
  simp [hop, raisedBy]

/-- A RUNNING step raises the fault that the table gives, and no other (R72, R74). -/
theorem step_faulted_iff {s t : State} (hr : s.run = .running) (h : step s = .next t) (e : Fault) :
    t.run = .faulted e ↔ FaultExplained s e := by
  rcases step_inv hr h with ⟨hpc, rfl⟩ | ⟨hpc, hx⟩
  · rw [faultExplained_unfetchable hpc, State.fetchFault, State.withFault, RunState.faulted.injEq, eq_comm]
  · rw [faultExplained_fetchable hpc, exec_raises hr hx]

/-- Every fault of the table is an access out of range that records the pc of the step (R71, R73). -/
theorem FaultExplained.exists_outOfRange {s : State} {e : Fault} (h : FaultExplained s e) :
    ∃ target index access, e = .outOfRange target index access s.pc := by
  rcases e with ⟨_ | _, index, access, pc⟩ | ⟨op, pc⟩
  · obtain ⟨-, -, -, rfl⟩ := h
    exact ⟨_, _, _, rfl⟩
  · obtain ⟨-, -, rfl, -⟩ := h
    exact ⟨_, _, _, rfl⟩
  · exact h.elim

/-! ### The trace line -/

/-- The model's hex digit of a number below 16 is the character at its place in the digits (R84). -/
theorem hexDigit_eq_getD {n : Nat} (h : n < 16) :
    hexDigit .lower n = "0123456789abcdef".toList.getD n ' ' ∧
      hexDigit .upper n = "0123456789ABCDEF".toList.getD n ' ' := by
  have hall : ∀ m < 16, hexDigit .lower m = "0123456789abcdef".toList.getD m ' ' ∧
      hexDigit .upper m = "0123456789ABCDEF".toList.getD m ' ' := by decide
  exact hall n h

/-- A number below 256 is written by its two hex digits, none of them cut off. -/
theorem hexTwo_eq {n : Nat} (c : HexCase) (h : n < 256) :
    hexTwo c n = [hexDigit c (n / 16), hexDigit c (n % 16)] := by
  rw [hexTwo, Nat.mod_eq_of_lt (by omega)]

/-- The eight registers, written out. -/
theorem toList_registers (x : Vector Byte 8) :
    x.toList = [x[0], x[1], x[2], x[3], x[4], x[5], x[6], x[7]] :=
  calc x.toList
    _ = (Vector.ofFn fun i : Fin 8 => x[(i : Nat)]).toList := by rw [Vector.ofFn_getElem]
    _ = List.ofFn fun i : Fin 8 => x[(i : Nat)] := Vector.toList_ofFn

/-- The line of a RUNNING step whose Fetch succeeds. -/
theorem traceLine_fetchable {s : State} (c : HexCase) (hr : s.run = .running) (hpc : s.pc ≤ 253) :
    traceLine true c s = some (traceText c s.pc
      ⟨s.byteAt s.pc, s.byteAt (s.pc + 1), s.byteAt (s.pc + 2)⟩ s.x) := by
  simp only [traceLine, hr, fetch_in hpc]
  rfl

theorem traceLine_unfetchable {s : State} (c : HexCase) (hpc : 254 ≤ s.pc) :
    traceLine true c s = none := by
  rw [traceLine, fetch_out hpc]
  cases s.run with
  | running => rfl
  | halted => rfl
  | faulted e => rfl

theorem traceLine_final {s : State} (c : HexCase) (hr : s.run ≠ .running) :
    traceLine true c s = none := by
  rw [traceLine]
  cases hs : s.run with
  | running => exact absurd hs hr
  | halted => rfl
  | faulted e => rfl

/-! ### The exit status -/

/-- Neither sign of EXIT_FAULT_STATUS makes it 0 (R82). -/
theorem exitFaultStatus_ne_zero : Config.exitFaultStatus ≠ 0 := by
  rw [Config.exitFaultStatus]
  split_ifs
  · exact Int.negSucc_ne_zero _
  · exact Int.natCast_ne_zero.2 (Nat.succ_ne_zero _)

/-! ### The obligations of 60_exceptions.md -/

/-- Settles O10: the state by `step_faulted`, and the pc by the table of raisers. -/
theorem faultKeepsTheStateBeforeTheStep : Obligations.FaultKeepsTheStateBeforeTheStep :=
  fun _ _ e hr h ht =>
    ⟨step_faulted hr h ht, .inl ((step_faulted_iff hr h e).1 ht).exists_outOfRange⟩

/-- Settles O14: Fetch and the instruction of the window raise the table's fault, each on its side of 253. -/
theorem faultsAreRaisedExactlyWhereTheTableSays : Obligations.FaultsAreRaisedExactlyWhereTheTableSays :=
  fun _ _ hr h e => step_faulted_iff hr h e

/-- Settles O41: the text of a fetchable step written out, its digits, and the cases without a line. -/
theorem traceLineOfAStep : Obligations.TraceLineOfAStep := by
  refine ⟨fun c s hr hpc => ?_, fun n hn => ?_, fun c s h => ?_, fun c s => rfl⟩
  · rw [traceLine_fetchable c hr hpc, traceText, toList_registers]
    simp [List.intercalate]
  · rw [hexTwo_eq _ hn, hexTwo_eq _ hn]
    obtain ⟨hlhi, huhi⟩ := hexDigit_eq_getD (show n / 16 < 16 by omega)
    obtain ⟨hllo, hulo⟩ := hexDigit_eq_getD (show n % 16 < 16 by omega)
    rw [hlhi, huhi, hllo, hulo]
    exact ⟨rfl, rfl⟩
  · rcases h with hr | hpc
    · exact traceLine_final c hr
    · exact traceLine_unfetchable c hpc

/-- Settles O39: the status by `exitFaultStatus_ne_zero`, and the model's mapping at each end of a run. -/
theorem exitStatusOfARun : Obligations.ExitStatusOfARun :=
  ⟨exitFaultStatus_ne_zero, rfl, fun _ => ⟨rfl, rfl⟩, fun _ => rfl, fun _ => rfl⟩

end Sys2Proof.Machine

/-! ## Reset, loading and hazards (70_reset_and_hazards.md)

The loader as a chain of memory writes, the top of memory, and the bound on the length of a run: every step
that leaves the machine RUNNING moves the pc up, and at 254 Fetch faults. -/

namespace Sys2Proof.Machine

/-! ### The loader -/

/-- The loader writes the first byte of an image and then the rest, one address up (R88). -/
theorem loadFrom_cons_in {base : Nat} (v : Byte) (rest : List Byte) (s : State) (h : base ≤ 255) :
    loadFrom base (v :: rest) s =
      loadFrom (base + 1) rest { s with mem := Memory.poke s.mem base v } := by
  rw [loadFrom, memWrite_in v s h]

/-- An image that ends inside the 256 cells is loaded (R88). -/
theorem loadFrom_fits {image : List Byte} {base : Nat} (s : State) (h : base + image.length ≤ 256) :
    ∃ t, loadFrom base image s = .ok t := by
  induction image generalizing base s with
  | nil => exact ⟨s, rfl⟩
  | cons v rest ih =>
    rw [List.length_cons] at h
    rw [loadFrom_cons_in v rest s (by omega)]
    exact ih _ (by omega)

/-- An image that reaches past the 256 cells raises at the write of address 256 (R89). -/
theorem loadFrom_too_long {image : List Byte} {base : Nat} (s : State) (hbase : base ≤ 256)
    (h : 256 < base + image.length) :
    loadFrom base image s = .error (.outOfRange .memory 256 .write s.pc) := by
  induction image generalizing base s with
  | nil => simp only [List.length_nil] at h; omega
  | cons v rest ih =>
    rw [List.length_cons] at h
    rcases Nat.lt_or_eq_of_le hbase with hlt | rfl
    · rw [loadFrom_cons_in v rest s (by omega)]
      exact ih _ (by omega) (by omega)
    · rw [loadFrom, memWrite_out v s (by decide)]

/-- A load that succeeds began with a write inside the 256 cells. -/
theorem loadFrom_cons_inv {base : Nat} {v : Byte} {rest : List Byte} {s t : State}
    (h : loadFrom base (v :: rest) s = .ok t) :
    base ≤ 255 ∧ loadFrom (base + 1) rest { s with mem := Memory.poke s.mem base v } = .ok t := by
  by_cases hbase : base ≤ 255
  · exact ⟨hbase, (loadFrom_cons_in v rest s hbase).symm.trans h⟩
  · rw [loadFrom, memWrite_out v s (by omega)] at h
    cases h

/-- The loader leaves every byte outside the image alone (R88). -/
theorem loadFrom_byteAt_outside {image : List Byte} {base addr : Nat} {s t : State}
    (h : loadFrom base image s = .ok t) (ha : addr < base ∨ base + image.length ≤ addr) :
    t.byteAt addr = s.byteAt addr := by
  induction image generalizing base s with
  | nil => rw [Except.ok.inj h]
  | cons v rest ih =>
    rw [List.length_cons] at ha
    obtain ⟨-, hrest⟩ := loadFrom_cons_inv h
    rw [ih hrest (by omega)]
    exact Memory.peek_poke_other s.mem v (by omega)

/-- Every byte of a loaded image stands at its index above `base` (R88). -/
theorem loadFrom_byteAt_inside {image : List Byte} {base k : Nat} {s t : State} (hm : Memory.wf s.mem)
    (h : loadFrom base image s = .ok t) (hk : k < image.length) : t.byteAt (base + k) = image[k] := by
  induction image generalizing base k s with
  | nil => exact absurd hk (Nat.not_lt_zero k)
  | cons v rest ih =>
    obtain ⟨hbase, hrest⟩ := loadFrom_cons_inv h
    cases k with
    | zero =>
      rw [loadFrom_byteAt_outside hrest (by omega)]
      exact Memory.peek_poke_self hm base v
    | succ k =>
      have hwf := Memory.poke_wf hm (show base < Config.memSize by rw [Config.memSize]; omega) v
      rw [← Nat.succ_add_eq_add_succ]
      exact ih hwf hrest (Nat.lt_of_succ_lt_succ hk)

/-- A constructed machine has every byte 0 (R34). -/
theorem construct_byteAt (r : Vector Byte 8) (f : List Byte) (addr : Nat) :
    (State.construct r f).byteAt addr = 0#8 := Memory.peek_nil addr

/-- A loaded machine is RUNNING (R87). -/
theorem load_construct_run {image : List Byte} {r : Vector Byte 8} {f : List Byte} {s : State}
    (h : load image (State.construct r f) = .ok s) : s.run = .running := by
  rw [loadFrom_frame h, State.construct_run]

/-! ### The top of memory -/

/-- A step that does not fault began at a pc that Fetch can read from (R94). -/
theorem fetchable_of_step_not_faulted {s t : State} (hr : s.run = .running) (h : step s = .next t)
    (ht : ∀ e, t.run ≠ .faulted e) : s.pc ≤ 253 := by
  rcases step_inv hr h with ⟨-, rfl⟩ | ⟨hpc, -⟩
  · exact absurd rfl (ht _)
  · exact hpc

/-- A step that leaves the machine RUNNING moves the pc by the decoder's width (R54). -/
theorem pc_of_step_running {s t : State} (hr : s.run = .running) (h : step s = .next t)
    (ht : t.run = .running) : t.pc = s.pc + (decodeOpcode (s.byteAt s.pc)).2 := by
  rcases step_pc_cases hr h with ⟨-, hpc⟩ | ⟨hne, -⟩
  · exact hpc
  · exact absurd ht hne

/-- At 254, 255 and 256 Fetch's first bad address is 256 (R50, R94). -/
theorem step_at_top {s : State} {p : Nat} (hr : s.run = .running) (hpc : s.pc = p) (hlo : 254 ≤ p)
    (hhi : p ≤ 256) : step s = .next (s.withFault (.outOfRange .memory 256 .read p)) := by
  subst hpc
  rw [step_unfetchable hr hlo, Nat.max_eq_right hhi]
  rfl

/-! ### The length of a run -/

theorem conclude_answers (s : State) (r : Except Fault State) : ∃ t, conclude s r = .next t := by
  cases r with
  | ok t => exact ⟨t, conclude_ok s t⟩
  | error e => exact ⟨_, conclude_error s e⟩

/-- Every instruction answers a next state. -/
theorem exec_answers (i : Instr) (s : State) : ∃ t, exec i s = .next t := by
  cases i with
  | hlt => exact ⟨_, exec_hlt s⟩
  | ldi a b => exact conclude_answers s _
  | prn a => exact conclude_answers s _
  | add a b => exact conclude_answers s _
  | mul a b => exact conclude_answers s _
  | unrecognized op => exact ⟨_, exec_unrecognized op s⟩

/-- Every step answers a next state: Fetch's fault, what an instruction answers, or the final state itself. -/
theorem step_answers (s : State) : ∃ t, step s = .next t := by
  by_cases hr : s.run = .running
  · rw [step_running hr]
    split_ifs
    · exact exec_answers _ s
    · exact ⟨_, rfl⟩
  · exact ⟨s, step_final hr⟩

/-- How many steps a RUNNING machine can still take: one for each address up to 253, and Fetch's fault (R93). -/
def State.stepsLeft (s : State) : Nat := 255 - min s.pc 254

/-- A step that leaves the machine RUNNING uses up a step (R93). -/
theorem stepsLeft_of_step_running {s t : State} (hr : s.run = .running) (h : step s = .next t)
    (ht : t.run = .running) : t.stepsLeft + 1 ≤ s.stepsLeft := by
  have htop : s.pc ≤ 253 := fetchable_of_step_not_faulted hr h (by simp [ht])
  have hpc := pc_of_step_running hr h ht
  have hwidth := decodeOpcode_width_mem (s.byteAt s.pc)
  simp only [List.mem_cons, List.not_mem_nil, or_false] at hwidth
  simp only [State.stepsLeft]
  omega

/-- A RUNNING machine ends its run before its steps are used up (R93). -/
theorem ends_within_stepsLeft {s : State} (hr : s.run = .running) :
    ∃ (k : Nat) (t : State), k ≤ s.stepsLeft ∧ runSteps k s = .next t ∧ t.run ≠ .running := by
  induction hn : s.stepsLeft using Nat.strong_induction_on generalizing s with
  | _ n ih =>
    subst hn
    obtain ⟨u, hu⟩ := step_answers s
    by_cases hur : u.run = .running
    · have hleft := stepsLeft_of_step_running hr hu hur
      obtain ⟨k, t, hk, hrun, ht⟩ := ih u.stepsLeft (by omega) hur rfl
      exact ⟨k + 1, t, by omega, (runSteps_succ hu k).trans hrun, ht⟩
    · have hone : 1 ≤ s.stepsLeft := by
        rw [State.stepsLeft]
        omega
      exact ⟨1, u, hone, (runSteps_succ hu 0).trans (runSteps_zero u), hur⟩

/-- Over unrecognized bytes a run does nothing but advance the pc, one byte a step (R55). -/
theorem runSteps_over_unrecognized {k : Nat} {s : State} (hr : s.run = .running) (hpc : s.pc + k ≤ 254)
    (hops : ∀ j < k, s.byteAt (s.pc + j) ∉ recognizedOpcodes) :
    runSteps k s = .next { s with pc := s.pc + k } := by
  induction k generalizing s with
  | zero => exact runSteps_zero s
  | succ k ih =>
    have hstep : step s = .next { s with pc := s.pc + 1 } := by
      have hop : s.byteAt s.pc ∉ recognizedOpcodes := hops 0 (Nat.succ_pos k)
      rw [step_fetchable_byteAt hr (by omega), instrOf_of_not_recognized _ _ hop, exec_unrecognized]
    have hrest := ih (s := { s with pc := s.pc + 1 }) hr (show s.pc + 1 + k ≤ 254 by omega) fun j hj => by
      have hop := hops (j + 1) (by omega)
      rwa [← Nat.succ_add_eq_add_succ] at hop
    rw [runSteps_succ hstep, hrest]
    simp only [Nat.add_assoc, Nat.add_comm 1 k]

/-! ### The obligations of 70_reset_and_hazards.md -/

/-- Settles O16: a step that does not fault was fetched at 253 or below, and `step_at_top` is what follows the
two widths that leave 253 for the top. -/
theorem topOfMemoryHazard : Obligations.TopOfMemoryHazard := by
  refine ⟨fun s t hr h ht => ⟨fetchable_of_step_not_faulted hr h ht, pc_of_step_running hr h⟩,
    fun s t hr hs h ht => ?_⟩
  have hpc := pc_of_step_running hr h ht
  rw [hs] at hpc
  constructor
  · intro hwidth
    rw [hwidth] at hpc
    exact ⟨hpc, step_at_top ht hpc (by decide) (by decide)⟩
  · intro hwidth
    rw [hwidth] at hpc
    exact ⟨hpc, step_at_top ht hpc (by decide) (by decide)⟩

/-- Settles O37: the load succeeds by `loadFrom_fits`, and its bytes are those inside and outside the image. -/
theorem loaderWritesTheImage : Obligations.LoaderWritesTheImage := by
  intro image r f hlen
  obtain ⟨t, ht⟩ := loadFrom_fits (State.construct r f) (show 0 + image.length ≤ 256 by omega)
  refine ⟨t, ht, loadFrom_frame ht, fun k hk => ?_, fun addr hout haddr => ?_,
    fun addr haddr => memRead_out t haddr⟩
  · have hbyte := loadFrom_byteAt_inside (construct_mem_wf r f) ht hk
    rw [Nat.zero_add] at hbyte
    rw [memRead_in t (by omega), ← hbyte]
    rfl
  · have hbyte := loadFrom_byteAt_outside (addr := addr) ht (by omega)
    rw [construct_byteAt] at hbyte
    rw [memRead_in t haddr, ← hbyte]
    rfl

/-- Settles O38, by `loadFrom_too_long` from address 0; the status is `Config.exitFaultStatus`. -/
theorem longImagesNeverStart : Obligations.LongImagesNeverStart := by
  intro image s hlen
  have hload : load image s = .error (.outOfRange .memory 256 .write s.pc) :=
    loadFrom_too_long s (by decide) (by omega)
  have hboot : boot (some image) s = .loadFailed (.outOfRange .memory 256 .write s.pc) := by
    rw [boot, hload]
  exact ⟨_, s.pc, rfl, hload, hboot, Config.exitFaultStatus, exitFaultStatus_ne_zero, by rw [hboot]; rfl⟩

/-- Settles O44: `stepsLeft` bounds every run, a loaded machine is RUNNING, and empty memory is unrecognized
bytes up to the top. -/
theorem everyRunEndsWithin255Steps : Obligations.EveryRunEndsWithin255Steps := by
  refine ⟨fun s hr => ends_within_stepsLeft hr, fun image r f s hload => ?_, fun r f => ?_⟩
  · obtain ⟨k, t, hk, hrun, ht⟩ := ends_within_stepsLeft (load_construct_run hload)
    exact ⟨k, t, hk.trans (Nat.sub_le _ _), hrun, ht⟩
  · have hpc : (State.construct r f).pc + 254 = 254 := by rw [State.construct_pc]
    have hops : ∀ j < 254, (State.construct r f).byteAt ((State.construct r f).pc + j) ∉
        recognizedOpcodes := fun j _ => by
      rw [construct_byteAt]
      decide
    exact ⟨_, runSteps_over_unrecognized (State.construct_run r f) hpc.le hops, rfl, hpc⟩

end Sys2Proof.Machine

/-! ## Encoding and decoding (30_encoding.md)

What `decode` answers on a string that is long enough, and the two directions of the round trip. The fetch
window is such a string, so the statements about a step at known bytes follow. -/

namespace Sys2Proof

/-! ### The decoder on a string that is long enough -/

/-- A string at least as long as its opcode asks for decodes to the instruction of its first three bytes. -/
theorem decode_cons {op : Byte} {bytes : List Byte} (h : (decodeOpcode op).2 ≤ bytes.length + 1) :
    decode (op :: bytes) = .ok
      (instrOf op (bytes.getD 0 0#8) (bytes.getD 1 0#8), bytes.drop ((decodeOpcode op).2 - 1)) :=
  if_neg (Nat.not_lt.2 h)

/-- What `decode` answers, it answers by `decode_cons`. -/
theorem decode_cons_inv {op : Byte} {bytes rest : List Byte} {i : Instr}
    (h : decode (op :: bytes) = .ok (i, rest)) :
    (decodeOpcode op).2 ≤ bytes.length + 1 ∧ i = instrOf op (bytes.getD 0 0#8) (bytes.getD 1 0#8) ∧
      rest = bytes.drop ((decodeOpcode op).2 - 1) := by
  by_cases hw : (decodeOpcode op).2 ≤ bytes.length + 1
  · rw [decode_cons hw] at h
    cases h
    exact ⟨hw, rfl, rfl⟩
  · rw [show decode (op :: bytes) = .error (.truncated op _) from if_pos (Nat.not_le.1 hw)] at h
    cases h

/-- No instruction is longer than three bytes (R42). -/
theorem decodeOpcode_width_le (op : Byte) : (decodeOpcode op).2 ≤ 3 := by
  have hwidth := Machine.decodeOpcode_width_mem op
  simp only [List.mem_cons, List.not_mem_nil, or_false] at hwidth
  omega

/-- Three bytes are enough for every opcode (R50). -/
theorem decode_three (op a b : Byte) :
    decode [op, a, b] = .ok (instrOf op a b, [a, b].drop ((decodeOpcode op).2 - 1)) :=
  decode_cons (decodeOpcode_width_le op)

/-- The decoder makes well-formed instructions only. -/
theorem instrOf_wf (op a b : Byte) : (instrOf op a b).wf = true := by
  rcases instrOf_cases op a b with ⟨-, hi⟩ | ⟨-, hi⟩ | ⟨-, hi⟩ | ⟨-, hi⟩ | ⟨-, hi⟩ | ⟨hop, hi⟩
  all_goals rw [hi]
  iterate 5 rfl
  simpa [Instr.wf] using hop

/-! ### The round trip -/

/-- Decoding an encoding gives the instruction and the bytes after it. -/
theorem decode_encode_append {i : Instr} (rest : List Byte) (h : i.wf = true) :
    decode (encode i ++ rest) = .ok (i, rest) := by
  cases i with
  | hlt => exact (decode_cons (by simp)).trans (by rw [Machine.instrOf_hlt]; rfl)
  | ldi a b => exact (decode_cons (by simp)).trans (by rw [Machine.instrOf_ldi]; rfl)
  | prn a => exact (decode_cons (by simp)).trans (by rw [Machine.instrOf_prn]; rfl)
  | add a b => exact (decode_cons (by simp)).trans (by rw [Machine.instrOf_add]; rfl)
  | mul a b => exact (decode_cons (by simp)).trans (by rw [Machine.instrOf_mul]; rfl)
  | unrecognized op =>
    have hop : op ∉ recognizedOpcodes := by simpa [Instr.wf] using h
    have hd := Machine.decodeOpcode_of_not_recognized hop
    exact (decode_cons (by simp [hd])).trans (by rw [Machine.instrOf_of_not_recognized _ _ hop, hd]; rfl)

/-- An instruction is spelled by as many bytes of its window as the decoder's width says (R36, R46). -/
theorem encode_instrOf (op a b : Byte) : encode (instrOf op a b) = [op, a, b].take (decodeOpcode op).2 := by
  rcases decodeOpcode_cases op with ⟨rfl, hd⟩ | ⟨rfl, hd⟩ | ⟨rfl, hd⟩ | ⟨rfl, hd⟩ | ⟨rfl, hd⟩ | ⟨-, hd⟩
  iterate 6 simp [instrOf, hd, encode]

/-- In a string that is long enough, the encoding and the rest are the whole string. -/
theorem encode_instrOf_append {op : Byte} {bytes : List Byte}
    (h : (decodeOpcode op).2 ≤ bytes.length + 1) :
    encode (instrOf op (bytes.getD 0 0#8) (bytes.getD 1 0#8)) ++
      bytes.drop ((decodeOpcode op).2 - 1) = op :: bytes := by
  rw [encode_instrOf]
  have hwidth := Machine.decodeOpcode_width_mem op
  generalize (decodeOpcode op).2 = width at h hwidth
  simp only [List.mem_cons, List.not_mem_nil, or_false] at hwidth
  rcases hwidth with rfl | rfl | rfl
  · rfl
  · obtain _ | ⟨a, rest⟩ := bytes
    · simp at h
    · rfl
  · obtain _ | ⟨a, _ | ⟨b, rest⟩⟩ := bytes
    · simp at h
    · simp at h
    · rfl

end Sys2Proof

namespace Sys2Proof.Machine

/-! ### The fetch window -/

/-- Where the bytes at the pc spell a well-formed instruction, the window is that instruction: the window
begins with its encoding, and decoding undoes it. -/
theorem instrOf_of_spelled {s : State} {i : Instr} (hwf : i.wf = true)
    (h : ∀ (k : Nat) (hk : k < (encode i).length), s.byteAt (s.pc + k) = (encode i)[k]) :
    instrOf (s.byteAt s.pc) (s.byteAt (s.pc + 1)) (s.byteAt (s.pc + 2)) = i := by
  have hbegins : encode i <+: [s.byteAt s.pc, s.byteAt (s.pc + 1), s.byteAt (s.pc + 2)] := by
    have hlen : (encode i).length ≤ 3 := by cases i <;> simp [encode]
    refine List.prefix_iff_getElem.2 ⟨hlen, fun k hk => ?_⟩
    rw [← h k hk]
    have hk3 : k < 3 := by omega
    interval_cases k
    iterate 3 rfl
  obtain ⟨rest, hrest⟩ := hbegins
  have hdecode := decode_encode_append rest hwf
  rw [hrest, decode_three] at hdecode
  cases hdecode
  rfl

/-- The pc of a placed word is one that Fetch can read from (R50, log 10). -/
theorem fetchablePc_le (pc : Nat) : fetchablePc pc ≤ 253 := by
  rw [fetchablePc, Config.memSize]
  split_ifs <;> omega

section placed
variable (s : State) (nbits w : Nat)

theorem withFetchWord_run : (s.withFetchWord nbits w).run = .running := rfl

theorem withFetchWord_pc : (s.withFetchWord nbits w).pc = fetchablePc s.pc := rfl

theorem withFetchWord_byteAt (addr : Nat) :
    (s.withFetchWord nbits w).byteAt addr =
      Memory.peek (Memory.poke (Memory.poke (Memory.poke s.mem (fetchablePc s.pc) (tableByte nbits w 0))
        (fetchablePc s.pc + 1) (tableByte nbits w 1)) (fetchablePc s.pc + 2) (tableByte nbits w 2)) addr :=
  rfl

end placed

/-- The bytes of a placed word stand in the window that the next step fetches: each later write leaves the
earlier ones alone. -/
theorem withFetchWord_window {s : State} (hm : Memory.wf s.mem) (nbits w : Nat) :
    (s.withFetchWord nbits w).byteAt (fetchablePc s.pc) = tableByte nbits w 0 ∧
      (s.withFetchWord nbits w).byteAt (fetchablePc s.pc + 1) = tableByte nbits w 1 ∧
      (s.withFetchWord nbits w).byteAt (fetchablePc s.pc + 2) = tableByte nbits w 2 := by
  have hpc : fetchablePc s.pc + 2 < Config.memSize := Nat.lt_of_le_of_lt
    (Nat.add_le_add_right (fetchablePc_le s.pc) 2) (by decide)
  have hwf := Memory.poke_wf hm (show fetchablePc s.pc < _ by omega) (tableByte nbits w 0)
  have hwf' := Memory.poke_wf hwf (show fetchablePc s.pc + 1 < _ by omega) (tableByte nbits w 1)
  simp only [withFetchWord_byteAt]
  refine ⟨?_, ?_, Memory.peek_poke_self hwf' _ _⟩
  · rw [Memory.peek_poke_other _ _ (by omega), Memory.peek_poke_other _ _ (by omega),
      Memory.peek_poke_self hm]
  · rw [Memory.peek_poke_other _ _ (by omega), Memory.peek_poke_self hwf]

/-- The step from a placed word runs the instruction of its three bytes. -/
theorem step_withFetchWord {s : State} (hm : Memory.wf s.mem) (nbits w : Nat) :
    step (s.withFetchWord nbits w) =
      exec (instrOf (tableByte nbits w 0) (tableByte nbits w 1) (tableByte nbits w 2))
        (s.withFetchWord nbits w) := by
  obtain ⟨h0, h1, h2⟩ := withFetchWord_window hm nbits w
  rw [step_fetchable_byteAt (withFetchWord_run s nbits w) (fetchablePc_le s.pc), withFetchWord_pc,
    h0, h1, h2]

/-! ### The obligations of 30_encoding.md -/

/-- Settles O1, by `decode_encode_append`. -/
theorem decodeOfEncodeIsTheInstruction : Obligations.DecodeOfEncodeIsTheInstruction :=
  fun _ rest h => decode_encode_append rest h

/-- Settles O2: the decoder answers the window's instruction, which spells the bytes it consumed. -/
theorem decodedBytesAreTheEncoding : Obligations.DecodedBytesAreTheEncoding := by
  intro bytes i rest h
  cases bytes with
  | nil => cases h
  | cons op bytes =>
    obtain ⟨hlen, rfl, rfl⟩ := decode_cons_inv h
    exact ⟨instrOf_wf _ _ _, (encode_instrOf_append hlen).symm⟩

/-- Settles O4: each string is an encoding, and what follows it. -/
theorem sampleWordsDecode : Obligations.SampleWordsDecode :=
  ⟨decode_encode_append (i := .hlt) [] rfl, decode_encode_append (i := .ldi _ _) [] rfl,
    decode_encode_append (i := .prn _) [] rfl, decode_encode_append (i := .add _ _) [] rfl,
    decode_encode_append (i := .mul _ _) [] rfl,
    decode_encode_append (i := .unrecognized 0x84#8) [0x82#8] (by decide)⟩

/-- Settles O7: the window is `i`, because it decodes to `i` or because the bytes at the pc spell `i`. -/
theorem stepRunsTheDecodedInstruction : Obligations.StepRunsTheDecodedInstruction := by
  refine ⟨fun s i rest hr hpc h => ?_, fun s i hr hpc hwf h => ?_⟩
  · rw [decode_three] at h
    cases h
    exact step_fetchable_byteAt hr hpc
  · rw [step_fetchable_byteAt hr hpc, instrOf_of_spelled hwf h]

/-- Settles O5: the window holds the word's bytes, and three bytes always decode. -/
theorem placedWordIsWhatTheNextStepRuns : Obligations.PlacedWordIsWhatTheNextStepRuns := by
  intro s nbits w hm
  refine ⟨_, ?_, instrOf_wf _ _ _, step_withFetchWord hm nbits w⟩
  rw [decodeTableWord, decode_three]

end Sys2Proof.Machine

/-! ## Frames and final states (40_cycle.md section 3)

The effect of an instruction, said once for all of them: which one place it writes beside the pc, or that it
raises and writes nothing. The frames and the rule of one write are read off it. -/

namespace Sys2Proof.Machine

/-! ### The effect of an instruction -/

/-- The operand that names the register an instruction writes (R61, R69, R70). -/
def destination : Instr → Option Byte
  | .ldi a _ => some a
  | .add a _ => some a
  | .mul a _ => some a
  | _ => none

/-- `Effect s i t`: from `s` to `t`, instruction `i` writes the one place that is its own and moves the pc, or
raises and writes nothing. (Where the pc goes is said by `exec_pc_cases`, and what is raised by
`exec_raises`.) -/
inductive Effect (s : State) : Instr → State → Prop
  | halts : Effect s .hlt { s with run := .halted }
  | writes {i : Instr} {a : Byte} (hi : destination i = some a) (ha : a.toNat < 8) (v : Byte) (pc : Nat) :
      Effect s i { s with x := s.x.set a.toNat v ha, pc := pc }
  | emits (a v : Byte) (pc : Nat) : Effect s (.prn a) { s with out := s.out ++ [v], pc := pc }
  | skips (op : Byte) (pc : Nat) : Effect s (.unrecognized op) { s with pc := pc }
  | raises (i : Instr) (e : Fault) : Effect s i (s.withFault e)

/-- ADD and MUL write `x[a]`, or raise. -/
theorem concludeAlu_effect {op : AluOp} {f : Byte → Byte → Byte} (hf : aluFunction op = some f)
    {i : Instr} {a b : Byte} (hi : destination i = some a) {s t : State}
    (h : conclude s ((alu op a b s).map (advance 3)) = .next t) : Effect s i t := by
  rcases concludeAlu_inv hf h with ⟨ha, -, rfl⟩ | ⟨-, rfl⟩ | ⟨-, -, rfl⟩
  · exact .writes hi ha _ _
  · exact .raises i _
  · exact .raises i _

/-- Every instruction has its effect. -/
theorem exec_effect {i : Instr} {s t : State} (h : exec i s = .next t) : Effect s i t := by
  cases i with
  | hlt =>
    obtain rfl := execHlt_inv h
    exact .halts
  | ldi a b =>
    rcases execLdi_inv h with ⟨ha, rfl⟩ | ⟨-, rfl⟩
    · exact .writes rfl ha b _
    · exact .raises _ _
  | prn a =>
    rcases execPrn_inv h with ⟨-, rfl⟩ | ⟨-, rfl⟩
    · exact .emits a _ _
    · exact .raises _ _
  | add a b => exact concludeAlu_effect (op := .add) rfl rfl h
  | mul a b => exact concludeAlu_effect (op := .mul) rfl rfl h
  | unrecognized op =>
    obtain rfl := execUnrecognized_inv h
    exact .skips op _

/-! ### Final states -/

/-- The step of a final machine answers that machine (R53). -/
theorem eq_of_step_final {s t : State} (hr : s.run ≠ .running) (h : step s = .next t) : s = t :=
  Host.Outcome.next.inj ((step_final hr).symm.trans h)

/-- A final machine stays as it is for any number of steps (R53). -/
theorem runSteps_final {s : State} (hr : s.run ≠ .running) (k : Nat) : runSteps k s = .next s := by
  induction k with
  | zero => exact runSteps_zero s
  | succ k ih => exact (runSteps_succ (step_final hr) k).trans ih

/-! ### The obligations -/

/-- Settles O8, by the answers of the instructions and of a step. -/
theorem everyInstructionAndStepAnswersANextState : Obligations.EveryInstructionAndStepAnswersANextState :=
  ⟨exec_answers, step_answers⟩

/-- Settles O9, by `runSteps_final`. -/
theorem finalStatesStayUnchanged : Obligations.FinalStatesStayUnchanged :=
  fun _ k hr => runSteps_final hr k

/-- Settles O11: the effects of an instruction other than a raise are the four cases. -/
theorem stepWritesAtMostOnePlace : Obligations.StepWritesAtMostOnePlace := by
  intro s t hr h ht
  rcases step_inv hr h with ⟨-, rfl⟩ | ⟨-, hx⟩
  · exact absurd rfl (ht _)
  · generalize instrOf _ _ _ = i at hx
    cases exec_effect hx with
    | halts => exact .inr (.inr (.inl rfl))
    | writes _ ha v pc => exact .inl ⟨_, ha, v, rfl⟩
    | emits a v pc => exact .inr (.inl ⟨v, rfl⟩)
    | skips op pc => exact .inr (.inr (.inr rfl))
    | raises i e => exact absurd rfl (ht e)

/-- Settles O23: of an instruction with a destination, the effect is the write of that register or a raise. -/
theorem frameOfRegisterWriters : Obligations.FrameOfRegisterWriters := by
  intro s t i a b hi h
  have hdest : destination i = some a := by rcases hi with rfl | rfl | rfl <;> rfl
  cases exec_effect h with
  | writes hi' ha v pc =>
    obtain rfl := Option.some.inj (hi'.symm.trans hdest)
    exact ⟨fun j hj hne => Vector.getElem_set_ne ha hj hne.symm, rfl, rfl, fun _ => rfl, .inl rfl⟩
  | raises i e => exact ⟨fun _ _ _ => rfl, rfl, rfl, fun _ => rfl, .inr ⟨e, rfl⟩⟩
  | halts => cases hdest
  | emits a v pc => cases hdest
  | skips op pc => cases hdest

/-- Settles O24: the effect of PRN is the byte it emits or a raise. -/
theorem frameOfPrn : Obligations.FrameOfPrn := by
  intro s t a h
  cases exec_effect h with
  | emits a v pc => exact ⟨fun _ _ => rfl, rfl, fun _ => rfl, .inl rfl⟩
  | raises i e => exact ⟨fun _ _ => rfl, rfl, fun _ => rfl, .inr ⟨e, rfl⟩⟩
  | writes hi ha v pc => cases hi

/-- Settles O25: HLT writes the run state and an unrecognized opcode the pc. -/
theorem frameOfHltAndUnrecognized : Obligations.FrameOfHltAndUnrecognized := by
  rintro s t i op (rfl | rfl) h
  · obtain rfl := execHlt_inv h
    exact ⟨fun _ _ => rfl, rfl, rfl, fun _ => rfl, fun _ => rfl, nofun⟩
  · obtain rfl := execUnrecognized_inv h
    exact ⟨fun _ _ => rfl, rfl, rfl, fun _ => rfl, nofun, fun _ => rfl⟩

end Sys2Proof.Machine

/-! ## Canonical memory and reset (10_state.md section 1, 70_reset_and_hazards.md section 1) -/

namespace Sys2Proof.Machine

/-! ### Canonical memories -/

/-- A listed head of a canonical memory reads as a byte that no unlisted address reads as. -/
theorem Memory.peek_head_ne {c : Host.Cell} {m : List Host.Cell} (h : Memory.wf (c :: m)) :
    Memory.peek (c :: m) c.1 ≠ Memory.unlisted := by
  obtain ⟨-, hne⟩ := h.2 c (List.mem_cons_self ..)
  rwa [Memory.peek_cons, if_pos rfl]

/-- Of two canonical memories that read the same, neither head stands below the other. -/
theorem Memory.head_le {c d : Host.Cell} {m n : List Host.Cell} (hm : Memory.wf (c :: m))
    (hn : Memory.wf (d :: n)) (h : ∀ addr, Memory.peek (c :: m) addr = Memory.peek (d :: n) addr) :
    d.1 ≤ c.1 := by
  by_contra hlt
  refine Memory.peek_head_ne hm ((h c.1).trans (Memory.peek_below fun e he => ?_))
  rcases List.mem_cons.1 he with rfl | he
  · omega
  · have := Memory.wf_head hn e he
    omega

/-- Canonical memories that read the same are the same list: their heads agree, and so do their tails. -/
theorem Memory.ext {m n : List Host.Cell} (hm : Memory.wf m) (hn : Memory.wf n)
    (h : ∀ addr, Memory.peek m addr = Memory.peek n addr) : m = n := by
  induction m generalizing n with
  | nil =>
    cases n with
    | nil => rfl
    | cons d n => exact absurd (h d.1).symm (Memory.peek_head_ne hn)
  | cons c m ih =>
    cases n with
    | nil => exact absurd (h c.1) (Memory.peek_head_ne hm)
    | cons d n =>
      obtain ⟨k, u⟩ := c
      obtain ⟨l, v⟩ := d
      obtain rfl : k = l :=
        Nat.le_antisymm (Memory.head_le hn hm fun addr => (h addr).symm) (Memory.head_le hm hn h)
      obtain rfl : u = v := by simpa [Memory.peek_cons] using h k
      rw [ih (Memory.wf_tail hm) (Memory.wf_tail hn) fun addr => ?_]
      by_cases haddr : k = addr
      · subst haddr
        rw [Memory.peek_below (Memory.wf_head hm), Memory.peek_below (Memory.wf_head hn)]
      · simpa [Memory.peek_cons, haddr] using h addr

/-- Settles O35, by `Memory.ext`. -/
theorem canonicalMemoriesAreExtensional : Obligations.CanonicalMemoriesAreExtensional :=
  fun _ _ hm hn h => Memory.ext hm hn h

/-! ### Reset -/

/-- The reset registers are the parameter REG_INIT, at every index (R13). -/
theorem resetRegs_eq_ofFn : resetRegs = Vector.ofFn Config.regInit := rfl

/-- Settles O36: the fields of a construction, with the open parameters at reset. -/
theorem resetValues : Obligations.ResetValues := by
  refine ⟨fun r f => ⟨construct_byteAt r f, rfl, rfl, rfl, rfl, rfl⟩, rfl, fun i hi => ?_, rfl⟩
  rw [State.reset, State.construct_x]
  simp only [resetRegs_eq_ofFn, Vector.getElem_ofFn]

end Sys2Proof.Machine

/-! ## The invariant, and whole runs

The invariant field by field. Its field about a HALTED machine is named on its own, since it holds along a run
whatever the memory and the Flags are; `runSteps_keeps` carries such a fact from a step to a run. -/

namespace Sys2Proof.Machine

/-! ### What every step keeps -/

/-- What every step keeps, every run keeps. -/
theorem runSteps_keeps {P : State → Prop} (hstep : ∀ s t, P s → step s = .next t → P t) {k : Nat}
    {s t : State} (hs : P s) (h : runSteps k s = .next t) : P t := by
  induction k generalizing s with
  | zero => rwa [← Host.Outcome.next.inj ((runSteps_zero s).symm.trans h)]
  | succ k ih =>
    obtain ⟨u, hu, hk⟩ := runSteps_succ_inv h
    exact ih (hstep s u hs hu) hk

/-- What every RUNNING step gives, every step keeps: a final state's step answers the state itself. -/
theorem step_keeps {P : State → Prop}
    (hrunning : ∀ s t, s.run = .running → P s → step s = .next t → P t) {s t : State} (hs : P s)
    (h : step s = .next t) : P t := by
  by_cases hr : s.run = .running
  · exact hrunning s t hr hs h
  · rwa [← eq_of_step_final hr h]

/-- A byte of memory is the same before and after a step. -/
theorem step_byteAt {s t : State} (h : step s = .next t) (addr : Nat) : t.byteAt addr = s.byteAt addr := by
  rw [State.byteAt, step_mem h, State.byteAt]

/-- A step that ends a run leaves the pc (R54). -/
theorem pc_of_step_ends {s t : State} (hr : s.run = .running) (h : step s = .next t)
    (ht : t.run ≠ .running) : t.pc = s.pc := by
  rcases step_pc_cases hr h with ⟨hrun, -⟩ | ⟨-, hpc⟩
  · exact absurd hrun ht
  · exact hpc

/-- The table of raisers looks at memory and the pc only. -/
theorem FaultExplained.congr {s t : State} {e : Fault} (hmem : t.mem = s.mem) (hpc : t.pc = s.pc) :
    FaultExplained t e ↔ FaultExplained s e := by
  rcases e with ⟨_ | _, index, access, pc⟩ | ⟨op, pc⟩
  iterate 3 simp only [FaultExplained, State.byteAt, hmem, hpc]

/-- A HALTED machine stands at an HLT that Fetch could read: the field of `Inv`, on its own (R15, R60). -/
def HaltedAtHlt (s : State) : Prop := s.run = .halted → s.pc ≤ 253 ∧ s.byteAt s.pc = 0x01#8

theorem haltedAtHlt_of_step {s t : State} (hr : s.run = .running) (h : step s = .next t) :
    HaltedAtHlt t := by
  intro ht
  rw [step_byteAt h, pc_of_step_ends hr h (by simp [ht])]
  exact hlt_of_step_halted hr h ht

/-- A machine that a step leaves FAULTED stands at the instruction that explains its fault (R15, R76). -/
theorem faultExplained_of_step {s t : State} {e : Fault} (hr : s.run = .running) (h : step s = .next t)
    (ht : t.run = .faulted e) : FaultExplained t e :=
  (FaultExplained.congr (step_mem h) (pc_of_step_ends hr h (by simp [ht]))).2
    ((step_faulted_iff hr h e).1 ht)

/-- A pc within 0..256 stays there: a step that moves it began at 253 or below and moves it by 3 at most
(R14, R94). -/
theorem pc_le_of_step {s t : State} (hr : s.run = .running) (hpc : s.pc ≤ 256) (h : step s = .next t) :
    t.pc ≤ 256 := by
  by_cases ht : t.run = .running
  · have htop := fetchable_of_step_not_faulted hr h (by simp [ht])
    have hmove := pc_of_step_running hr h ht
    have hwidth := decodeOpcode_width_le (s.byteAt s.pc)
    omega
  · rwa [pc_of_step_ends hr h ht]

theorem flags_of_step {s t : State} (h : step s = .next t) : t.flags = s.flags := by
  obtain ⟨_, happ⟩ := step_appendsOnly h
  exact happ.flags

/-- A RUNNING step keeps the invariant, field by field. -/
theorem inv_of_step_running {s t : State} (hr : s.run = .running) (hs : Inv s) (h : step s = .next t) :
    Inv t where
  memory := (step_mem h).symm ▸ hs.memory
  pcBound := pc_le_of_step hr hs.pcBound h
  flagsPresent := (flags_of_step h).symm ▸ hs.flagsPresent
  haltedAtHlt := haltedAtHlt_of_step hr h
  faultedAtCause _ ht := faultExplained_of_step hr h ht

/-! ### The states that meet the invariant before a run -/

/-- A RUNNING machine meets the two fields about final states, whatever it stands at. -/
theorem inv_of_running {s : State} (hr : s.run = .running) (hm : Memory.wf s.mem) (hpc : s.pc ≤ 256)
    (hf : 1 ≤ s.flags.length) : Inv s where
  memory := hm
  pcBound := hpc
  flagsPresent := hf
  haltedAtHlt ht := by cases hr.symm.trans ht
  faultedAtCause _ ht := by cases hr.symm.trans ht

theorem construct_inv (r : Vector Byte 8) {f : List Byte} (hf : f ≠ []) : Inv (State.construct r f) :=
  inv_of_running (State.construct_run r f) (construct_mem_wf r f) (Nat.zero_le _)
    (List.length_pos_of_ne_nil hf)

theorem resetFlags_ne_nil : resetFlags ≠ [] :=
  List.ne_nil_of_length_pos (by rw [resetFlags, List.length_ofFn]; exact Nat.succ_pos _)

/-- Loading keeps the invariant of a RUNNING machine: it changes memory only, and keeps it canonical. -/
theorem load_inv {image : List Byte} {s t : State} (hr : s.run = .running) (hs : Inv s)
    (h : load image s = .ok t) : Inv t := by
  have hm := loadFrom_keeps_wf hs.memory h
  rw [loadFrom_frame h]
  exact inv_of_running hr hm hs.pcBound hs.flagsPresent

/-! ### Registers never steer control -/

/-- `u` is where `s` is in its run, up to the registers, the Flags and the values of the output. -/
structure SameControl (s u : State) : Prop where
  mem : u.mem = s.mem
  pc : u.pc = s.pc
  run : u.run = s.run
  outLength : u.out.length = s.out.length

/-- How many bytes an instruction emits does not depend on the registers. -/
theorem emittedBy_length (i : Instr) (s u : State) :
    (emittedBy i s).length = (emittedBy i u).length := by
  cases i with
  | prn a =>
    by_cases ha : a.toNat < 8
    · rw [emittedBy_prn_in s ha, emittedBy_prn_in u ha]
      rfl
    · rw [emittedBy_prn_out s (by omega), emittedBy_prn_out u (by omega)]
  | _ => rfl

/-- Run states that are HALTED together, and FAULTED together with the same fault, are the same. -/
theorem RunState.eq_of_final_iff {r q : RunState} (hh : r = .halted ↔ q = .halted)
    (hf : ∀ e, r = .faulted e ↔ q = .faulted e) : r = q := by
  cases q with
  | halted => exact hh.2 rfl
  | faulted e => exact (hf e).2 rfl
  | running =>
    cases r with
    | running => rfl
    | halted => exact (hh.1 rfl).symm
    | faulted e => exact ((hf e).1 rfl).symm

namespace SameControl

variable {s u t v : State}

theorem byteAt_eq (hc : SameControl s u) (addr : Nat) : u.byteAt addr = s.byteAt addr := by
  rw [State.byteAt, hc.mem, State.byteAt]

/-- Fetch reads memory and the pc only. -/
theorem fetch_eq (hc : SameControl s u) : fetch u = fetch s := by
  by_cases hpc : s.pc ≤ 253
  · rw [fetch_in hpc, fetch_in (hc.pc.le.trans hpc), hc.pc, hc.mem]
  · rw [fetch_out (s := s) (by omega), fetch_out (by rw [hc.pc]; omega), hc.pc]

/-- HALTED and FAULTED are decided by what Fetch reads. -/
theorem step_run (hc : SameControl s u) (hr : s.run = .running) (ht : step s = .next t)
    (hv : step u = .next v) : v.run = t.run := by
  have hru := hc.run.trans hr
  refine RunState.eq_of_final_iff ?_ fun e => ?_
  · rw [step_halts_iff hr ht, step_halts_iff hru hv, hc.fetch_eq, hc.pc, hc.byteAt_eq, hc.byteAt_eq]
  · rw [step_faulted_iff hr ht, step_faulted_iff hru hv, FaultExplained.congr hc.mem hc.pc]

theorem step_pc (hc : SameControl s u) (hr : s.run = .running) (ht : step s = .next t)
    (hv : step u = .next v) : v.pc = t.pc := by
  have hru := hc.run.trans hr
  have hrun := hc.step_run hr ht hv
  by_cases htr : t.run = .running
  · rw [pc_of_step_running hr ht htr, pc_of_step_running hru hv (hrun.trans htr), hc.pc, hc.byteAt_eq]
  · rw [pc_of_step_ends hr ht htr, pc_of_step_ends hru hv (hrun ▸ htr), hc.pc]

theorem step_outLength (hc : SameControl s u) (hr : s.run = .running) (ht : step s = .next t)
    (hv : step u = .next v) : v.out.length = t.out.length := by
  have hru := hc.run.trans hr
  have hpc := hc.pc
  rcases step_inv hr ht with ⟨hs, rfl⟩ | ⟨hs, hx⟩
  · rcases step_inv hru hv with ⟨-, rfl⟩ | ⟨hu, -⟩
    · exact hc.outLength
    · omega
  · rcases step_inv hru hv with ⟨hu, -⟩ | ⟨-, hy⟩
    · omega
    · simp only [hpc, hc.byteAt_eq] at hy
      rw [(exec_appendsOnly hx).out, (exec_appendsOnly hy).out, List.length_append, List.length_append,
        hc.outLength, emittedBy_length _ u s]

/-- One step of two machines at the same place leaves them at the same place. -/
theorem after_step (hc : SameControl s u) (ht : step s = .next t) :
    ∃ v, step u = .next v ∧ SameControl t v := by
  obtain ⟨v, hv⟩ := step_answers u
  refine ⟨v, hv, ?_⟩
  by_cases hr : s.run = .running
  · exact ⟨by rw [step_mem hv, step_mem ht, hc.mem], hc.step_pc hr ht hv, hc.step_run hr ht hv,
      hc.step_outLength hr ht hv⟩
  · rwa [← eq_of_step_final hr ht, ← eq_of_step_final (hc.run ▸ hr) hv]

/-- So does a run of any length. -/
theorem after_runSteps {k : Nat} (hc : SameControl s u) (ht : runSteps k s = .next t) :
    ∃ v, runSteps k u = .next v ∧ SameControl t v := by
  induction k generalizing s u with
  | zero =>
    obtain rfl : s = t := Host.Outcome.next.inj ((runSteps_zero s).symm.trans ht)
    exact ⟨u, runSteps_zero u, hc⟩
  | succ k ih =>
    obtain ⟨w, hw, hk⟩ := runSteps_succ_inv ht
    obtain ⟨w', hw', hc'⟩ := hc.after_step hw
    obtain ⟨v, hv, hcv⟩ := ih hc' hk
    exact ⟨v, (runSteps_succ hw' k).trans hv, hcv⟩

end SameControl

/-! ### Safe runs -/

/-- A step never moves the pc down (R30, R54). -/
theorem pc_le_step {s t : State} (h : step s = .next t) : s.pc ≤ t.pc := by
  refine step_keeps (P := fun u => s.pc ≤ u.pc) (fun u v hr hu hv => ?_) le_rfl h
  rcases step_pc_cases hr hv with ⟨-, hpc⟩ | ⟨-, hpc⟩
  · omega
  · omega

theorem pc_le_runSteps {k : Nat} {s t : State} (h : runSteps k s = .next t) : s.pc ≤ t.pc :=
  runSteps_keeps (P := fun u => s.pc ≤ u.pc) (fun _ _ hu hv => hu.trans (pc_le_step hv)) le_rfl h

/-- A run that begins RUNNING and ends HALTED ends at an HLT that Fetch could read. -/
theorem haltedAtHlt_of_runSteps {k : Nat} {s t : State} (hr : s.run = .running)
    (h : runSteps k s = .next t) : HaltedAtHlt t :=
  runSteps_keeps (P := HaltedAtHlt)
    (fun _ _ hu hv => step_keeps (fun _ _ hr' _ hw => haltedAtHlt_of_step hr' hw) hu hv)
    (fun hs => by cases hr.symm.trans hs) h

/-! ### The obligations -/

/-- Settles O43: a RUNNING step keeps the invariant field by field, and a final state's step answers that
state. -/
theorem everyStepKeepsTheInvariant : Obligations.EveryStepKeepsTheInvariant :=
  fun _ _ hs h => step_keeps (fun _ _ hr hu hv => inv_of_step_running hr hu hv) hs h

/-- Settles O42, from the states that meet the invariant before a run. -/
theorem resetAndLoadingMeetTheInvariant : Obligations.ResetAndLoadingMeetTheInvariant :=
  ⟨construct_inv _ resetFlags_ne_nil, fun r _ hf => construct_inv r hf,
    fun _ _ _ hr hs h => load_inv hr hs h⟩

/-- Settles O45: the two runs are at the same place after every step. -/
theorem registersNeverSteerControl : Obligations.RegistersNeverSteerControl := by
  intro k s t x h
  have hstart : SameControl s { s with x := x } := ⟨rfl, rfl, rfl, rfl⟩
  obtain ⟨u, hu, hc⟩ := hstart.after_runSteps h
  exact ⟨u, hu, hc.pc, hc.run, hc.outLength⟩

/-- Settles O46: the run ends within `stepsLeft` steps, not FAULTED, so at an HLT of the memory it began
with. -/
theorem safeRunsReachAnHlt : Obligations.SafeRunsReachAnHlt := by
  intro s hr hsafe
  obtain ⟨k, t, hk, hrun, ht⟩ := ends_within_stepsLeft hr
  have hhalt : t.run = .halted := by
    cases hend : t.run with
    | running => exact absurd hend ht
    | halted => rfl
    | faulted e => exact absurd hend (hsafe k t hrun e)
  obtain ⟨hpc, hbyte⟩ := haltedAtHlt_of_runSteps hr hrun hhalt
  rw [State.byteAt, runSteps_mem hrun] at hbyte
  exact ⟨k, t, hk.trans (Nat.sub_le _ _), hrun, hhalt, pc_le_runSteps hrun, hpc, hbyte⟩

end Sys2Proof.Machine
